-- ==== Sys2Proof/Word.lean ====
section
/-! DEFINITION. The two machine words of the CORE: a byte of 8 bits and a 16-bit word (R5, R7). Every value is unsigned and
arithmetic wraps at the width (R25), which is what `BitVec` arithmetic does. The helpers that split and join words stand in
Decode.lean. -/

namespace Sys2Proof

/-- A byte: 8 bits, numbered 7 to 0 (R7). -/
abbrev Byte := BitVec 8

/-- A 16-bit word: an address, a pair's value, SP or PC (R5, R7). -/
abbrev Word := BitVec 16

end Sys2Proof
end

