-- ==== Sys2Proof/Config.lean ====
section
/-! DEFINITION. The constants the model fixes beside the state, and the one free value of the machine. The parameters of R6
that differ from run to run (HOOKS, M_FORMS, DCR_AC) are plain data in the state (`Machine.Params`), so that a statement about
every state speaks of every choice of them; the values the spec recommends for DCR_AC stand here. -/

namespace Sys2Proof

/-- How many cells the memory has: addresses 0 to 65535 (R50). -/
abbrev Config.memSize : Nat := 65536

/-- What a memory cell reads as when the memory lists no entry for it. DESIGN CHOICE (log 3), unsafe: the spec leaves
MEM_INIT open (R40, D12); every memory content is still a state of the model, since the cells that differ are listed. -/
def Config.memDefault : Byte := 0

/-- The byte that the n-th draw of a run returns: what a peripheral answers to a read of a hooked address (R64, D15, U7).
A free value: it has no body, so nothing is known of it. DESIGN CHOICE of form (log 4), safe. -/
opaque Config.hookByte : Nat → Byte

/-- The default of the parameter DCR_AC as the table of its 256 values, bit k for the old value k: the 8080's
`(old & 0x0F) != 0` (R6, R172, D9). -/
def Config.dcrAcCarry : BitVec 256 :=
  0xFFFEFFFEFFFEFFFEFFFEFFFEFFFEFFFEFFFEFFFEFFFEFFFEFFFEFFFEFFFEFFFE#256

/-- The other reading of DCR_AC that R172 names, the borrow convention `(old & 0x0F) == 0`, as a table of 256 values. -/
def Config.dcrAcBorrow : BitVec 256 :=
  0x0001000100010001000100010001000100010001000100010001000100010001#256

end Sys2Proof
end

