-- ==== Sys2Proof/Syntax.lean ====
section
/-! DEFINITION. The instructions of the CORE: register and pair names, the nineteen instruction forms of the opcode table
(R91) and the instructions themselves, which are a form with its operand value. -/

namespace Sys2Proof

/-- The seven general registers (R21). -/
inductive Reg where
  | a | b | c | d | e | h | l
  deriving DecidableEq, Repr

/-- The three register pairs (R22); there is no pair SP and no pair PSW (R85, D4). -/
inductive Pair where
  | bc | de | hl
  deriving DecidableEq, Repr

/-- The fourteen mnemonics (R103). -/
inductive Mnemonic where
  | mov | mvi | lxi | lda | sta | push | pop | inr | dcr | inx | jmp | call | ret | hlt
  deriving DecidableEq, Repr

/-- The seven addressing modes (R86). -/
inductive AddrMode where
  | registerDirect | registerPair | registerIndirectHL | immediate8 | immediate16 | directAddress16 | implicit
  deriving DecidableEq, Repr

/-- The three formats: 1, 2 or 3 bytes (R81). -/
inductive Format where
  | f1 | f2 | f3
  deriving DecidableEq, Repr

/-- An entry of the opcode table: one of the nineteen forms of R91 with its register and pair operands, lacking only the
operand value that the bytes after the opcode give. There are 105 of them, one for each opcode byte with an entry (R93). -/
inductive Form where
  | movRR (dst src : Reg)
  | movRM (dst : Reg)
  | movMR (src : Reg)
  | mviR (dst : Reg)
  | mviM
  | lxi (p : Pair)
  | lda
  | sta
  | push (p : Pair)
  | pop (p : Pair)
  | inrR (r : Reg)
  | inrM
  | dcrR (r : Reg)
  | dcrM
  | inx (p : Pair)
  | jmp
  | call
  | ret
  | hlt
  deriving DecidableEq, Repr

/-- The instructions: one constructor for each form of R91, with all its operands. -/
inductive Instr where
  | movRR (dst src : Reg)               -- MOV r,r' (R155)
  | movRM (dst : Reg)                 -- MOV r,M (R156)
  | movMR (src : Reg)                 -- MOV M,r (R157)
  | mviR (dst : Reg) (d8 : Byte)      -- MVI r,d8 (R150)
  | mviM (d8 : Byte)                -- MVI M,d8 (R151)
  | lxi (p : Pair) (d16 : Word)     -- LXI rp,d16 (R154)
  | lda (a16 : Word)                -- LDA a16 (R152)
  | sta (a16 : Word)                -- STA a16 (R153)
  | push (p : Pair)                 -- PUSH rp (R158)
  | pop (p : Pair)                  -- POP rp (R159)
  | inrR (r : Reg)                  -- INR r (R170)
  | inrM                            -- INR M (R171)
  | dcrR (r : Reg)                  -- DCR r (R172)
  | dcrM                            -- DCR M (R173)
  | inx (p : Pair)                  -- INX rp (R174)
  | jmp (a16 : Word)                -- JMP a16 (R180)
  | call (a16 : Word)               -- CALL a16 (R181)
  | ret                             -- RET (R182)
  | hlt                             -- HLT (R183)
  deriving DecidableEq, Repr

end Sys2Proof
end

