-- ==== Sys2Proof/Decode.lean ====
section
/-! DEFINITION. The two readings of the opcode table: the decoder, which looks the opcode byte up in the table as R93 lays it
out (R98), and the encoder, which packs the bytes by the formulas of R112. Both are written from their own rules, so that their
agreement (R117) says something. The byte-order helpers (R58, R88), the codes of registers and pairs (R84, R85), the formats
and lengths (R81, R83) and the addressing modes (R86) stand here too. -/

namespace Sys2Proof

/-! ## Bytes and words -/

/-- `hi ++ lo`: the 16-bit value with `hi` in the high half (R7, R55). -/
def joinBytes (hi lo : Byte) : Word := hi ++ lo

/-- `v[7:0]` (R7). -/
def loByte (v : Word) : Byte := v.extractLsb' 0 8

/-- `v[15:8]` (R7). -/
def hiByte (v : Word) : Byte := v.extractLsb' 8 8

/-! ## What an entry of the table says -/

/-- The forms with the memory operand M: the 17 opcode bytes that M_FORMS switches (R97). -/
def Form.usesM : Form → Bool
  | .movRM _ | .movMR _ | .mviM | .inrM | .dcrM => true
  | .movRR _ _ | .mviR _ | .lxi _ | .lda | .sta | .push _ | .pop _ | .inrR _ | .dcrR _ | .inx _ | .jmp | .call | .ret
  | .hlt => false

/-- The mnemonic of an entry (R91). -/
def Form.mnemonic : Form → Mnemonic
  | .movRR _ _ | .movRM _ | .movMR _ => .mov
  | .mviR _ | .mviM => .mvi
  | .lxi _ => .lxi
  | .lda => .lda
  | .sta => .sta
  | .push _ => .push
  | .pop _ => .pop
  | .inrR _ | .inrM => .inr
  | .dcrR _ | .dcrM => .dcr
  | .inx _ => .inx
  | .jmp => .jmp
  | .call => .call
  | .ret => .ret
  | .hlt => .hlt

/-- The operand modes of an entry, in operand order (R91, column "operand modes"; R86). -/
def Form.modes : Form → List AddrMode
  | .movRR _ _ => [.registerDirect, .registerDirect]
  | .movRM _ => [.registerDirect, .registerIndirectHL]
  | .movMR _ => [.registerIndirectHL, .registerDirect]
  | .mviR _ => [.registerDirect, .immediate8]
  | .mviM => [.registerIndirectHL, .immediate8]
  | .lxi _ => [.registerPair, .immediate16]
  | .lda | .sta | .jmp | .call => [.directAddress16]
  | .push _ | .pop _ | .inx _ => [.registerPair]
  | .inrR _ | .dcrR _ => [.registerDirect]
  | .inrM | .dcrM => [.registerIndirectHL]
  | .ret | .hlt => [.implicit]

/-- How many operand bytes a mode implies: one for immediate-8, two for immediate-16 and direct-address-16, none for every
other mode (R83). -/
def AddrMode.operandBytes : AddrMode → Nat
  | .immediate8 => 1
  | .immediate16 | .directAddress16 => 2
  | .registerDirect | .registerPair | .registerIndirectHL | .implicit => 0

/-- The format of an entry (R81, R91). -/
def Form.format : Form → Format
  | .mviR _ | .mviM => .f2
  | .lxi _ | .lda | .sta | .jmp | .call => .f3
  | .movRR _ _ | .movRM _ | .movMR _ | .push _ | .pop _ | .inrR _ | .inrM | .dcrR _ | .dcrM | .inx _ | .ret | .hlt => .f1

/-- The total length of a format in bytes (R80, R81). -/
def Format.length : Format → Nat
  | .f1 => 1
  | .f2 => 2
  | .f3 => 3

/-- The entry an instruction belongs to: the instruction less its operand value. -/
def Instr.form : Instr → Form
  | .movRR dst src => .movRR dst src
  | .movRM dst => .movRM dst
  | .movMR src => .movMR src
  | .mviR dst _ => .mviR dst
  | .mviM _ => .mviM
  | .lxi p _ => .lxi p
  | .lda _ => .lda
  | .sta _ => .sta
  | .push p => .push p
  | .pop p => .pop p
  | .inrR r => .inrR r
  | .inrM => .inrM
  | .dcrR r => .dcrR r
  | .dcrM => .dcrM
  | .inx p => .inx p
  | .jmp _ => .jmp
  | .call _ => .call
  | .ret => .ret
  | .hlt => .hlt

/-- The total length of an instruction in bytes (R80). -/
def Instr.length (i : Instr) : Nat := i.form.format.length

/-- The instruction of an entry with the operand value `v`; an immediate-8 is the low byte of `v` (R98). -/
def Form.instr (f : Form) (v : Word) : Instr :=
  match f with
  | .movRR dst src => .movRR dst src
  | .movRM dst => .movRM dst
  | .movMR src => .movMR src
  | .mviR dst => .mviR dst (loByte v)
  | .mviM => .mviM (loByte v)
  | .lxi p => .lxi p v
  | .lda => .lda v
  | .sta => .sta v
  | .push p => .push p
  | .pop p => .pop p
  | .inrR r => .inrR r
  | .inrM => .inrM
  | .dcrR r => .dcrR r
  | .dcrM => .dcrM
  | .inx p => .inx p
  | .jmp => .jmp v
  | .call => .call v
  | .ret => .ret
  | .hlt => .hlt

/-! ## The opcode table, byte by byte -/

/-- A row of the opcode space with no entry (R93). -/
def opcodeRowEmpty : List (Option Form) :=
  [none, none, none, none, none, none, none, none, none, none, none, none, none, none, none, none]

/-- The bytes 0x00 to 0x0F (R93). -/
def opcodeRow0 : List (Option Form) :=
  [none, some (.lxi .bc), none, some (.inx .bc),
   some (.inrR .b), some (.dcrR .b), some (.mviR .b), none,
   none, none, none, none,
   some (.inrR .c), some (.dcrR .c), some (.mviR .c), none]

/-- The bytes 0x10 to 0x1F (R93). -/
def opcodeRow1 : List (Option Form) :=
  [none, some (.lxi .de), none, some (.inx .de),
   some (.inrR .d), some (.dcrR .d), some (.mviR .d), none,
   none, none, none, none,
   some (.inrR .e), some (.dcrR .e), some (.mviR .e), none]

/-- The bytes 0x20 to 0x2F (R93). -/
def opcodeRow2 : List (Option Form) :=
  [none, some (.lxi .hl), none, some (.inx .hl),
   some (.inrR .h), some (.dcrR .h), some (.mviR .h), none,
   none, none, none, none,
   some (.inrR .l), some (.dcrR .l), some (.mviR .l), none]

/-- The bytes 0x30 to 0x3F (R93). -/
def opcodeRow3 : List (Option Form) :=
  [none, none, some .sta, none,
   some .inrM, some .dcrM, some .mviM, none,
   none, none, some .lda, none,
   some (.inrR .a), some (.dcrR .a), some (.mviR .a), none]

/-- The bytes 0x40 to 0x4F (R93). -/
def opcodeRow4 : List (Option Form) :=
  [some (.movRR .b .b), some (.movRR .b .c), some (.movRR .b .d), some (.movRR .b .e),
   some (.movRR .b .h), some (.movRR .b .l), some (.movRM .b), some (.movRR .b .a),
   some (.movRR .c .b), some (.movRR .c .c), some (.movRR .c .d), some (.movRR .c .e),
   some (.movRR .c .h), some (.movRR .c .l), some (.movRM .c), some (.movRR .c .a)]

/-- The bytes 0x50 to 0x5F (R93). -/
def opcodeRow5 : List (Option Form) :=
  [some (.movRR .d .b), some (.movRR .d .c), some (.movRR .d .d), some (.movRR .d .e),
   some (.movRR .d .h), some (.movRR .d .l), some (.movRM .d), some (.movRR .d .a),
   some (.movRR .e .b), some (.movRR .e .c), some (.movRR .e .d), some (.movRR .e .e),
   some (.movRR .e .h), some (.movRR .e .l), some (.movRM .e), some (.movRR .e .a)]

/-- The bytes 0x60 to 0x6F (R93). -/
def opcodeRow6 : List (Option Form) :=
  [some (.movRR .h .b), some (.movRR .h .c), some (.movRR .h .d), some (.movRR .h .e),
   some (.movRR .h .h), some (.movRR .h .l), some (.movRM .h), some (.movRR .h .a),
   some (.movRR .l .b), some (.movRR .l .c), some (.movRR .l .d), some (.movRR .l .e),
   some (.movRR .l .h), some (.movRR .l .l), some (.movRM .l), some (.movRR .l .a)]

/-- The bytes 0x70 to 0x7F (R93). -/
def opcodeRow7 : List (Option Form) :=
  [some (.movMR .b), some (.movMR .c), some (.movMR .d), some (.movMR .e),
   some (.movMR .h), some (.movMR .l), some .hlt, some (.movMR .a),
   some (.movRR .a .b), some (.movRR .a .c), some (.movRR .a .d), some (.movRR .a .e),
   some (.movRR .a .h), some (.movRR .a .l), some (.movRM .a), some (.movRR .a .a)]

/-- The bytes 0xC0 to 0xCF (R93). -/
def opcodeRowC : List (Option Form) :=
  [none, some (.pop .bc), none, some .jmp,
   none, some (.push .bc), none, none,
   none, some .ret, none, none,
   none, some .call, none, none]

/-- The bytes 0xD0 to 0xDF (R93). -/
def opcodeRowD : List (Option Form) :=
  [none, some (.pop .de), none, none,
   none, some (.push .de), none, none,
   none, none, none, none,
   none, none, none, none]

/-- The bytes 0xE0 to 0xEF (R93). -/
def opcodeRowE : List (Option Form) :=
  [none, some (.pop .hl), none, none,
   none, some (.push .hl), none, none,
   none, none, none, none,
   none, none, none, none]

/-- The opcode space of R93: a row for each high hexadecimal digit of the byte, a cell for each low one; `none` is the
table's "-". The one table that the decoder reads and the encoder agrees with (R89). -/
def opcodeGrid : List (List (Option Form)) :=
  [opcodeRow0, opcodeRow1, opcodeRow2, opcodeRow3,
   opcodeRow4, opcodeRow5, opcodeRow6, opcodeRow7,
   opcodeRowEmpty, opcodeRowEmpty, opcodeRowEmpty, opcodeRowEmpty,
   opcodeRowC, opcodeRowD, opcodeRowE, opcodeRowEmpty]

/-- The entry of an opcode byte, `none` where the byte is illegal (R94). With M_FORMS false the 17 bytes of the forms with M
have no entry (R97). -/
def lookup (mForms : Bool) (op : Byte) : Option Form :=
  match (opcodeGrid.getD (op.toNat / 16) []).getD (op.toNat % 16) none with
  | some f => if f.usesM && !mForms then none else some f
  | none => none

/-! ## The decoder -/

/-- Why bytes are not an instruction: the first byte has no entry (R94), or the list ends before the operand bytes that the
entry asks for (which a memory of 65536 cells never does, R134). -/
inductive DecodeError where
  | invalidOpcode (op : Byte)
  | truncated
  deriving DecidableEq, Repr

/-- Decode the instruction at the head of a list of bytes, and return the bytes after it (R83, R87, R88, R98). -/
def decode (mForms : Bool) : List Byte → Except DecodeError (Instr × List Byte)
  | [] => .error .truncated
  | op :: rest =>
    match lookup mForms op with
    | none => .error (.invalidOpcode op)
    | some f =>
      match f.format, rest with
      | .f1, rest => .ok (f.instr 0, rest)
      | .f2, d8 :: rest => .ok (f.instr (joinBytes 0 d8), rest)
      | .f3, lo :: hi :: rest => .ok (f.instr (joinBytes hi lo), rest)
      | .f2, [] | .f3, [] | .f3, [_] => .error .truncated

/-! ## The encoder -/

/-- The 3-bit code of a register (R84), read backwards. -/
def Reg.code : Reg → BitVec 3
  | .b => 0b000
  | .c => 0b001
  | .d => 0b010
  | .e => 0b011
  | .h => 0b100
  | .l => 0b101
  | .a => 0b111

/-- The 3-bit code of the memory operand M (R84). -/
def codeM : BitVec 3 := 0b110

/-- The 2-bit code of a pair (R85), read backwards. -/
def Pair.code : Pair → BitVec 2
  | .bc => 0b00
  | .de => 0b01
  | .hl => 0b10

/-- `base + 8*ddd + sss` in the byte (R112). -/
def opcodeOfRegs (base : Byte) (ddd sss : BitVec 3) : Byte :=
  base + 8 * ddd.zeroExtend 8 + sss.zeroExtend 8

/-- `base + 16*pc2(p)` in the byte (R112). -/
def opcodeOfPair (base : Byte) (p : Pair) : Byte :=
  base + 16 * p.code.zeroExtend 8

/-- The opcode byte of an entry, by the formulas of R112. -/
def Form.opcode : Form → Byte
  | .movRR dst src => opcodeOfRegs 0x40 dst.code src.code
  | .movRM dst => opcodeOfRegs 0x40 dst.code codeM
  | .movMR src => opcodeOfRegs 0x40 codeM src.code
  | .mviR dst => opcodeOfRegs 0x06 dst.code 0
  | .mviM => opcodeOfRegs 0x06 codeM 0
  | .lxi p => opcodeOfPair 0x01 p
  | .lda => 0x3A
  | .sta => 0x32
  | .push p => opcodeOfPair 0xC5 p
  | .pop p => opcodeOfPair 0xC1 p
  | .inrR r => opcodeOfRegs 0x04 r.code 0
  | .inrM => opcodeOfRegs 0x04 codeM 0
  | .dcrR r => opcodeOfRegs 0x05 r.code 0
  | .dcrM => opcodeOfRegs 0x05 codeM 0
  | .inx p => opcodeOfPair 0x03 p
  | .jmp => 0xC3
  | .call => 0xCD
  | .ret => 0xC9
  | .hlt => 0x76

/-- A 16-bit operand as its two bytes, low byte first (R58, R112). -/
def wordBytes (v : Word) : List Byte := [loByte v, hiByte v]

/-- The operand bytes of an instruction, in memory order (R112). -/
def Instr.operandBytes : Instr → List Byte
  | .mviR _ d8 | .mviM d8 => [d8]
  | .lxi _ v | .lda v | .sta v | .jmp v | .call v => wordBytes v
  | .movRR _ _ | .movRM _ | .movMR _ | .push _ | .pop _ | .inrR _ | .inrM | .dcrR _ | .dcrM | .inx _ | .ret | .hlt => []

/-- The bytes of an instruction: its opcode byte, then its operand bytes (R112). -/
def encode (i : Instr) : List Byte := i.form.opcode :: i.operandBytes

/-! ## The fields of the opcode byte -/

/-- `reg(c)`: the register of a 3-bit code, `none` for 110, which selects M (R84). -/
def regOfCode (c : BitVec 3) : Option Reg :=
  match c.toNat with
  | 0 => some .b
  | 1 => some .c
  | 2 => some .d
  | 3 => some .e
  | 4 => some .h
  | 5 => some .l
  | 7 => some .a
  | _ => none

/-- `pair(c)`: the pair of a 2-bit code, `none` for 11 (R85). -/
def pairOfCode (c : BitVec 2) : Option Pair :=
  match c.toNat with
  | 0 => some .bc
  | 1 => some .de
  | 2 => some .hl
  | _ => none

/-- The entry of a byte read through the fields of R82 and the bit patterns of R91, for M_FORMS true. The decoder does not use
it: the claim that it says what the table says is an obligation. -/
def lookupByFields (op : Byte) : Option Form :=
  let ddd := op.extractLsb' 3 3
  let sss := op.extractLsb' 0 3
  let pair := pairOfCode (op.extractLsb' 4 2)
  let operation := op.extractLsb' 0 4
  match (op.extractLsb' 6 2).toNat with
  | 0 =>
    if sss = 0b110 then some ((regOfCode ddd).elim .mviM .mviR)
    else if sss = 0b100 then some ((regOfCode ddd).elim .inrM .inrR)
    else if sss = 0b101 then some ((regOfCode ddd).elim .dcrM .dcrR)
    else if operation = 0b0001 then pair.map .lxi
    else if operation = 0b0011 then pair.map .inx
    else if op = 0b00111010 then some .lda
    else if op = 0b00110010 then some .sta
    else none
  | 1 =>
    match regOfCode ddd, regOfCode sss with
    | some dst, some src => some (.movRR dst src)
    | some dst, none => some (.movRM dst)
    | none, some src => some (.movMR src)
    | none, none => some .hlt
  | 3 =>
    if operation = 0b0101 then pair.map .push
    else if operation = 0b0001 then pair.map .pop
    else if op = 0b11000011 then some .jmp
    else if op = 0b11001101 then some .call
    else if op = 0b11001001 then some .ret
    else none
  | _ => none

/-! ## The opcode table's words -/

/-- Byte `k` of an instruction whose bits are `w`, numbered as spec/opcode_table.json numbers them; bits from `nbits` on are
zero. -/
def tableByte (nbits w k : Nat) : Byte := BitVec.ofNat 8 ((w % 2 ^ nbits) / 256 ^ k)

/-- The bytes of that instruction in memory order, as many as the longest instruction has (R80). -/
def tableBytes (nbits w : Nat) : List Byte := [tableByte nbits w 0, tableByte nbits w 1, tableByte nbits w 2]

/-- What the decoder reads from an instruction whose bits are `w`, for the recommended M_FORMS, true (R6). -/
def decodeTableWord (nbits w : Nat) : Option Instr :=
  match decode true (tableBytes nbits w) with
  | .ok (i, _) => some i
  | .error _ => none

end Sys2Proof
end

