-- ==== Sys2Proof/Machine/State.lean ====
section
/-! DEFINITION. The state of the CORE as plain data (R20, R38), the reasons a step can stop, and the state right after reset.
Beside the state of R20 it holds the parameters HOOKS, M_FORMS and DCR_AC of R6, which a run never changes, and the record of
the accesses to hooked addresses (R64): the fixed form of `exec` has no other place for them (log 1). -/

namespace Sys2Proof.Machine

/-- The seven general registers, 8 bits each (R21). The pairs are views of them and have no storage (R22). -/
structure Regs where
  a : Byte
  b : Byte
  c : Byte
  d : Byte
  e : Byte
  h : Byte
  l : Byte
  deriving DecidableEq, Repr

/-- The five condition flags, independent cells with no packing into a byte (R28, R34). -/
structure Flags where
  /-- Zero. -/
  z : Bool
  /-- Sign. -/
  s : Bool
  /-- Parity. -/
  p : Bool
  /-- Carry. -/
  cy : Bool
  /-- Auxiliary carry. -/
  ac : Bool
  deriving DecidableEq, Repr

/-- The run status (R35). -/
inductive RunStatus where
  | running
  | halted
  deriving DecidableEq, Repr

/-- A peripheral hook: the device `device` answers the accesses to the addresses `lo` to `hi`, both included (R62, R63). -/
structure Hook where
  lo : Word
  hi : Word
  device : Nat
  deriving DecidableEq, Repr

/-- One access to a hooked address: a read with the byte the hook returned, or a write with the byte it took (R64, D15). -/
inductive HookEvent where
  | read (addr : Word) (byte : Byte)
  | write (addr : Word) (byte : Byte)
  deriving DecidableEq, Repr

/-- The parameters of R6 that are fixed before a run and read by its steps. -/
structure Params where
  /-- HOOKS: the registered peripheral hooks (R62). -/
  hooks : List Hook
  /-- M_FORMS: whether the operand M exists (R97). -/
  mForms : Bool
  /-- DCR_AC: the auxiliary carry of a decrement; bit k is its value for the old byte k (R172, D9). -/
  dcrAc : BitVec 256
  deriving DecidableEq, Repr

/-- The memory: the cells that differ from `Config.memDefault`, by rising address (R50). -/
abbrev Memory : Type := List Host.Cell

/-- The state of the CORE (R20), with the run's parameters and the record of hooked accesses. -/
structure State where
  /-- A, B, C, D, E, H, L (R21). -/
  regs : Regs
  /-- The stack pointer (R26). -/
  sp : Word
  /-- The program counter (R27). -/
  pc : Word
  /-- Z, S, P, CY, AC (R28). -/
  flags : Flags
  /-- RUNNING or HALTED (R35). -/
  run : RunStatus
  /-- The 65536 bytes of memory (R37, R50). -/
  mem : Memory
  /-- HOOKS, M_FORMS, DCR_AC (R6); no step writes them. -/
  params : Params
  /-- How many draws hooked reads have made (R64); the model's own counter (log 4). -/
  draws : Nat
  /-- The hooked accesses, oldest first (R64, D15). -/
  hookLog : List HookEvent
  deriving DecidableEq, Repr

/-- Why the machine stops: the one run-time failure of the CORE (R200). -/
inductive Fault where
  /-- InvalidOpcode(addr): raised by the fetch of a step when the byte at PC has no entry in the opcode table; `addr` is PC
  (R135, R201). Safe: the spec has the run end there, and for the bytes it leaves out the fault says "no meaning given". -/
  | invalidOpcode (addr : Word)
  deriving DecidableEq, Repr

/-- Why a step gives nothing where the spec defines none. -/
inductive Refusal where
  /-- An instruction without a meaning; raised by no arm of `exec` any more. Safe: nothing is claimed of it. -/
  | notModelled (mnemonic : String)
  /-- A step asked of a halted machine: there is no step while `run` is HALTED (R35, R138). Raised by the step function before
  any fetch, never by an instruction. Safe: the spec gives the machine no further behaviour. -/
  | halted
  deriving DecidableEq, Repr

/-- What a step, and the meaning of an instruction, answers. -/
abbrev Outcome : Type := Host.Outcome State Fault Refusal

/-- The machine right after reset. There is no reset pin: this is the creation of a run (R230) with PC 0 and RUNNING (R40,
D10), no hook, M_FORMS true and the recommended DCR_AC (R6), and no image. The spec leaves the registers, SP, the flags and the
memory open (R40, D11, D12): zero here is a DESIGN CHOICE (log 2, log 3), unsafe for a claim that starts from this state. -/
def State.reset : State where
  regs := ⟨0, 0, 0, 0, 0, 0, 0⟩
  sp := 0
  pc := 0
  flags := ⟨false, false, false, false, false⟩
  run := .running
  mem := []
  params := ⟨[], true, Config.dcrAcCarry⟩
  draws := 0
  hookLog := []

end Sys2Proof.Machine
end

