-- ==== Sys2Proof/Machine/Ops.lean ====
section
/-! DEFINITION. The named operations over registers, memory and hooks that every meaning is written with, the stack word
operations, and raising InvalidOpcode, the one exception (there is no trap entry and no return from one: R206, R207). -/

namespace Sys2Proof.Machine

/-! ## Registers and pairs -/

/-- `x[r]` (R8). -/
def Regs.get (g : Regs) : Reg → Byte
  | .a => g.a
  | .b => g.b
  | .c => g.c
  | .d => g.d
  | .e => g.e
  | .h => g.h
  | .l => g.l

/-- `x[r] <- v` (R8): that register and nothing else (R24). -/
def Regs.set (g : Regs) (r : Reg) (v : Byte) : Regs :=
  match r with
  | .a => { g with a := v }
  | .b => { g with b := v }
  | .c => { g with c := v }
  | .d => { g with d := v }
  | .e => { g with e := v }
  | .h => { g with h := v }
  | .l => { g with l := v }

/-- `hi(p)`, the high half of a pair (R8, R22). -/
def pairHi : Pair → Reg
  | .bc => .b
  | .de => .d
  | .hl => .h

/-- `lo(p)`, the low half of a pair (R8, R22). -/
def pairLo : Pair → Reg
  | .bc => .c
  | .de => .e
  | .hl => .l

/-- `rp[p]`, the pair as a view of its halves (R22). -/
def Regs.getPair (g : Regs) (p : Pair) : Word := joinBytes (g.get (pairHi p)) (g.get (pairLo p))

/-- `rp[p] <- v`, split into the two halves (R22). -/
def Regs.setPair (g : Regs) (p : Pair) (v : Word) : Regs :=
  (g.set (pairHi p) (hiByte v)).set (pairLo p) (loByte v)

/-- `x[r]` of a state. -/
def State.reg (s : State) (r : Reg) : Byte := s.regs.get r

/-- `x[r] <- v` in a state. -/
def State.setReg (s : State) (r : Reg) (v : Byte) : State := { s with regs := s.regs.set r v }

/-- `rp[p]` of a state. -/
def State.pair (s : State) (p : Pair) : Word := s.regs.getPair p

/-- `rp[p] <- v` in a state. -/
def State.setPair (s : State) (p : Pair) (v : Word) : State := { s with regs := s.regs.setPair p v }

/-- `SP <- v`. -/
def State.setSp (s : State) (v : Word) : State := { s with sp := v }

/-- `pc <- v`. -/
def State.setPc (s : State) (v : Word) : State := { s with pc := v }

/-- Write all five flags. -/
def State.setFlags (s : State) (f : Flags) : State := { s with flags := f }

/-- `run <- r`. -/
def State.setRun (s : State) (r : RunStatus) : State := { s with run := r }

/-! ## Plain memory -/

/-- The canonical form: addresses strictly rising and below 65536, no cell at the value an unlisted address has. -/
abbrev Memory.wf (m : Memory) : Prop :=
  m.Pairwise (fun x y => x.1 < y.1) ∧ ∀ x ∈ m, x.1 < Config.memSize ∧ x.2 ≠ Config.memDefault

/-- `Mem[a]`. -/
def Memory.get : Memory → Nat → Byte
  | [], _ => Config.memDefault
  | x :: m, a => if x.1 = a then x.2 else Memory.get m a

/-- The memory without its cell at `a`, which then reads as an unlisted address. -/
def Memory.clear (m : Memory) (a : Nat) : Memory := m.filter (fun x => x.1 ≠ a)

/-- Insert a cell before the first cell of a higher address. -/
def Memory.insertCell (c : Host.Cell) : Memory → Memory
  | [] => [c]
  | x :: m => if c.1 < x.1 then c :: x :: m else x :: Memory.insertCell c m

/-- `Mem[a] <- v`, in the canonical form. -/
def Memory.set (m : Memory) (a : Nat) (v : Byte) : Memory :=
  if v = Config.memDefault then Memory.clear m a else Memory.insertCell (a, v) (Memory.clear m a)

/-- `Mem[a]` of a state: the plain storage, whether or not a hook covers the address. -/
def State.peek (s : State) (a : Word) : Byte := Memory.get s.mem a.toNat

/-- `Mem[a] <- v` in a state: plain storage. -/
def State.poke (s : State) (a : Word) (v : Byte) : State := { s with mem := Memory.set s.mem a.toNat v }

/-! ## Hooks -/

/-- The hook's range holds the address (R63). -/
def Hook.covers (k : Hook) (a : Word) : Bool := decide (k.lo ≤ a ∧ a ≤ k.hi)

/-- Two hooks share an address (R63). -/
def Hook.overlaps (k j : Hook) : Bool := decide (k.lo ≤ j.hi ∧ j.lo ≤ k.hi)

/-- A hook list that R62 and R63 allow: every range has `lo <= hi` and no two ranges overlap. -/
abbrev hooksOk (ks : List Hook) : Prop :=
  (∀ k ∈ ks, k.lo ≤ k.hi) ∧ ks.Pairwise (fun k j => k.overlaps j = false)

/-- Some hook covers the address (R52, R53). -/
def State.hooked (s : State) (a : Word) : Bool := s.params.hooks.any (fun k => k.covers a)

/-- The hook returned `v` for a read of `a`: one draw made, the read recorded (R64, D15). Nothing else changes: that a hook always
returns, never re-enters a step and touches only this access is assumed of the host (R65, R235, log 19). -/
def State.noteRead (s : State) (a : Word) (v : Byte) : State :=
  { s with draws := s.draws + 1, hookLog := s.hookLog ++ [.read a v] }

/-- The hook took `v` for a write to `a`: the write recorded (R64, D15). Nothing else changes, by the same assumption of the host
(R65, R235, log 19). -/
def State.noteWrite (s : State) (a : Word) (v : Byte) : State :=
  { s with hookLog := s.hookLog ++ [.write a v] }

/-! ## The four memory operations -/

/-- `read_byte`, `MemRead(a, 1)` (R52): the byte and the state after the read. An address is a 16-bit word, so it is already
taken modulo 65536 (R54). -/
def State.readByte (s : State) (a : Word) : Byte × State :=
  if s.hooked a then (Config.hookByte s.draws, s.noteRead a (Config.hookByte s.draws)) else (s.peek a, s)

/-- `write_byte`, `MemWrite(a, 1, v)` (R53). -/
def State.writeByte (s : State) (a : Word) (v : Byte) : State :=
  if s.hooked a then s.noteWrite a v else s.poke a v

/-- `read_word`, `MemRead(a, 2)` (R55): the low byte at `a` first, then the high byte at `a + 1` (D13). -/
def State.readWord (s : State) (a : Word) : Word × State :=
  let lo := s.readByte a
  let hi := lo.2.readByte (a + 1)
  (joinBytes hi.1 lo.1, hi.2)

/-- `write_word`, `MemWrite(a, 2, v)` (R56): the low byte at `a` first, then the high byte at `a + 1` (D13). -/
def State.writeWord (s : State) (a : Word) (v : Word) : State :=
  (s.writeByte a (loByte v)).writeByte (a + 1) (hiByte v)

/-! ## The stack -/

/-- Push a word: SP down by 2, then the word stored at the new SP (R158, R181). -/
def State.pushWord (s : State) (v : Word) : State :=
  (s.setSp (s.sp - 2)).writeWord (s.sp - 2) v

/-- Pop a word: the word loaded at SP, then SP up by 2 (R159, R182). -/
def State.popWord (s : State) : Word × State :=
  let r := s.readWord s.sp
  (r.1, r.2.setSp (s.sp + 2))

/-! ## The exception -/

/-- `raise InvalidOpcode(a)` (R10, R201): the run ends with the fault and the state stays as it was. -/
def raiseInvalidOpcode {σ : Type} (a : Word) : Host.Outcome σ Fault Refusal := .fault (.invalidOpcode a)

end Sys2Proof.Machine
end

