-- ==== Sys2Proof/Machine/Flags.lean ====
section
/-! DEFINITION. Every flag computation the spec gives: the parity, the bulk helper SetZSP, and the auxiliary carry of an
increment and of a decrement. CY is computed by no admitted instruction (R33). -/

namespace Sys2Proof.Machine

/-- `parity_even(v)`: 1 when an even number of the eight bits is 1 (R11, R29, D7). -/
def parityEven (v : Byte) : Bool :=
  !(v[0] ^^ v[1] ^^ v[2] ^^ v[3] ^^ v[4] ^^ v[5] ^^ v[6] ^^ v[7])

/-- `SetZSP(v)`: Z, S and P from the result, no other flag (R11, R31). -/
def Flags.setZSP (f : Flags) (v : Byte) : Flags :=
  { f with z := v == 0, s := v[7], p := parityEven v }

/-- The auxiliary carry of `old + 1`: the carry out of bit 3 (R170, D8). -/
def incAuxCarry (old : Byte) : Bool := (old &&& 0x0F) == 0x0F

/-- The auxiliary carry of `old - 1`: the parameter DCR_AC (R172, D9). -/
def Params.decAuxCarry (q : Params) (old : Byte) : Bool := q.dcrAc.getLsbD old.toNat

/-- The flags after an increment of `old`: Z, S, P from `old + 1`, AC from the carry, CY kept (R170, R171). -/
def Flags.afterInc (f : Flags) (old : Byte) : Flags :=
  { f.setZSP (old + 1) with ac := incAuxCarry old }

/-- The flags after a decrement of `old`: Z, S, P from `old - 1`, AC from DCR_AC, CY kept (R172, R173). -/
def Flags.afterDec (f : Flags) (q : Params) (old : Byte) : Flags :=
  { f.setZSP (old - 1) with ac := q.decAuxCarry old }

end Sys2Proof.Machine
end

