-- ==== Sys2Proof/Machine/Operands.lean ====
section
/-! DEFINITION. The operand forms (R86). Register-direct and register-pair operands are `State.reg`, `State.setReg`,
`State.pair` and `State.setPair`; an immediate or an address has already been read by the fetch. What is left is the memory
operand M and the operand bytes of the fetch. -/

namespace Sys2Proof.Machine

/-- The address of the operand M: the pair HL (R86, register-indirect-via-HL). -/
def State.addrM (s : State) : Word := s.pair .hl

/-- Read the operand M. -/
def State.readM (s : State) : Byte × State := s.readByte s.addrM

/-- The immediate-8 of an instruction at `a`: the byte after the opcode (R87). It comes as a word with a zero high half. -/
def State.readImm8 (s : State) (a : Word) : Word × State :=
  let d8 := s.readByte (a + 1)
  (joinBytes 0 d8.1, d8.2)

/-- The immediate-16 or direct address of an instruction at `a`: the low byte at `a + 1`, then the high byte at `a + 2` (R88,
R98), each address taken modulo 65536 (R134). -/
def State.readImm16 (s : State) (a : Word) : Word × State :=
  let lo := s.readByte (a + 1)
  let hi := lo.2.readByte (a + 2)
  (joinBytes hi.1 lo.1, hi.2)

/-- The operand value of an instruction at `a` of this format (R98). -/
def State.readOperand (s : State) (fmt : Format) (a : Word) : Word × State :=
  match fmt with
  | .f1 => (0, s)
  | .f2 => s.readImm8 a
  | .f3 => s.readImm16 a

end Sys2Proof.Machine
end

