-- ==== Sys2Proof/Machine/Arithmetic.lean ====
section
/-! DEFINITION. The arithmetic instructions (R170 to R174). PC has been advanced before any of them runs (R131); every result
wraps at its width (R175) and none can raise an exception (R200). -/

namespace Sys2Proof.Machine

/-- INR r (R170). -/
def execInrR (r : Reg) (s : State) : Outcome :=
  .next ((s.setReg r (s.reg r + 1)).setFlags (s.flags.afterInc (s.reg r)))

/-- INR M (R171): the byte is read, then written back at the same address. -/
def execInrM (s : State) : Outcome :=
  let old := s.readM
  .next ((old.2.writeByte s.addrM (old.1 + 1)).setFlags (s.flags.afterInc old.1))

/-- DCR r (R172). -/
def execDcrR (r : Reg) (s : State) : Outcome :=
  .next ((s.setReg r (s.reg r - 1)).setFlags (s.flags.afterDec s.params (s.reg r)))

/-- DCR M (R173): the byte is read, then written back at the same address. -/
def execDcrM (s : State) : Outcome :=
  let old := s.readM
  .next ((old.2.writeByte s.addrM (old.1 - 1)).setFlags (s.flags.afterDec s.params old.1))

/-- INX rp (R174): no flag is written, the carry out of the low half goes into the high one. -/
def execInx (p : Pair) (s : State) : Outcome := .next (s.setPair p (s.pair p + 1))

end Sys2Proof.Machine
end

