-- ==== Sys2Proof/Machine/Control.lean ====
section
/-! DEFINITION. The control transfer instructions and HLT (R180 to R183). PC has been advanced before any of them runs, so
`s.pc` is the address of the next instruction in memory order (R131, R132). None writes a flag. -/

namespace Sys2Proof.Machine

/-- JMP a16 (R180). -/
def execJmp (a16 : Word) (s : State) : Outcome := .next (s.setPc a16)

/-- CALL a16 (R181): the return address pushed is the advanced PC. -/
def execCall (a16 : Word) (s : State) : Outcome := .next ((s.pushWord s.pc).setPc a16)

/-- RET (R182). -/
def execRet (s : State) : Outcome :=
  let r := s.popWord
  .next (r.2.setPc r.1)

/-- HLT (R183). -/
def execHlt (s : State) : Outcome := .next (s.setRun .halted)

end Sys2Proof.Machine
end

