-- ==== Sys2Proof/Machine/DataTransfer.lean ====
section
/-! DEFINITION. The data transfer instructions (R150 to R159). PC has been advanced before any of them runs (R131); none writes
a flag (R161) and none can raise an exception (R200). -/

namespace Sys2Proof.Machine

/-- MVI r,d8 (R150). -/
def execMviR (r : Reg) (d8 : Byte) (s : State) : Outcome := .next (s.setReg r d8)

/-- MVI M,d8 (R151). -/
def execMviM (d8 : Byte) (s : State) : Outcome := .next (s.writeByte s.addrM d8)

/-- LDA a16 (R152). -/
def execLda (a16 : Word) (s : State) : Outcome :=
  let r := s.readByte a16
  .next (r.2.setReg .a r.1)

/-- STA a16 (R153). -/
def execSta (a16 : Word) (s : State) : Outcome := .next (s.writeByte a16 (s.reg .a))

/-- LXI rp,d16 (R154). -/
def execLxi (p : Pair) (d16 : Word) (s : State) : Outcome := .next (s.setPair p d16)

/-- MOV r,r' (R155). -/
def execMovRR (dst src : Reg) (s : State) : Outcome := .next (s.setReg dst (s.reg src))

/-- MOV r,M (R156): the address is formed before the register is written (R242). -/
def execMovRM (dst : Reg) (s : State) : Outcome :=
  let r := s.readM
  .next (r.2.setReg dst r.1)

/-- MOV M,r (R157). -/
def execMovMR (src : Reg) (s : State) : Outcome := .next (s.writeByte s.addrM (s.reg src))

/-- PUSH rp (R158). -/
def execPush (p : Pair) (s : State) : Outcome := .next (s.pushWord (s.pair p))

/-- POP rp (R159). -/
def execPop (p : Pair) (s : State) : Outcome :=
  let r := s.popWord
  .next (r.2.setPair p r.1)

end Sys2Proof.Machine
end

