-- ==== Sys2Proof/Machine/Dispatch.lean ====
section
/-! DEFINITION. The action of a decoded instruction (R136): one arm for each constructor of Instr, each one call of its
meaning. -/

namespace Sys2Proof.Machine

def exec (i : Instr) (s : State) : Host.Outcome State Fault Refusal :=
  match i with
  | .movRR dst src => Sys2Proof.Machine.execMovRR dst src s
  | .movRM dst => Sys2Proof.Machine.execMovRM dst s
  | .movMR src => Sys2Proof.Machine.execMovMR src s
  | .mviR r d8 => Sys2Proof.Machine.execMviR r d8 s
  | .mviM d8 => Sys2Proof.Machine.execMviM d8 s
  | .lxi p d16 => Sys2Proof.Machine.execLxi p d16 s
  | .lda a16 => Sys2Proof.Machine.execLda a16 s
  | .sta a16 => Sys2Proof.Machine.execSta a16 s
  | .push p => Sys2Proof.Machine.execPush p s
  | .pop p => Sys2Proof.Machine.execPop p s
  | .inrR r => Sys2Proof.Machine.execInrR r s
  | .inrM => Sys2Proof.Machine.execInrM s
  | .dcrR r => Sys2Proof.Machine.execDcrR r s
  | .dcrM => Sys2Proof.Machine.execDcrM s
  | .inx p => Sys2Proof.Machine.execInx p s
  | .jmp a16 => Sys2Proof.Machine.execJmp a16 s
  | .call a16 => Sys2Proof.Machine.execCall a16 s
  | .ret => Sys2Proof.Machine.execRet s
  | .hlt => Sys2Proof.Machine.execHlt s

end Sys2Proof.Machine
end

