-- ==== Sys2Proof/Machine/Fetch.lean ====
section
/-! DEFINITION. The part of a step before its action (R131): is the machine running, read and decode the instruction at PC,
advance PC. And the placing of an instruction where the next step fetches it, which stands for the loading of a program
(log 13). -/

namespace Sys2Proof.Machine

/-- `Decode(a)` (R98): the opcode byte at `a` is read first; only when it has an entry are the operand bytes read, in
ascending order. The result is the instruction and the state after the reads, or `none` for Invalid(a), where no operand byte
is read and the draw of a hooked opcode byte is not recorded (log 14). -/
def State.decodeAt (s : State) (a : Word) : Option (Instr × State) :=
  let op := s.readByte a
  match lookup s.params.mForms op.1 with
  | none => none
  | some f =>
    let v := op.2.readOperand f.format a
    some (f.instr v.1, v.2)

/-- `PC <- PC +16 n` for the length of the fetched instruction (R132, R133). -/
def State.advancePc (s : State) (n : Nat) : State := s.setPc (s.pc + BitVec.ofNat 16 n)

/-- What stands before the action of a step (R131): a halted machine has no step (R138); the instruction at PC is decoded, or
the step raises InvalidOpcode(PC) with nothing changed (R135); PC is advanced. -/
def State.fetchNext (s : State) : Host.Outcome (Instr × State) Fault Refusal :=
  match s.run with
  | .halted => .refused .halted
  | .running =>
    match s.decodeAt s.pc with
    | none => raiseInvalidOpcode s.pc
    | some r => .next (r.1, r.2.advancePc r.1.length)

/-- Plain stores of a list of bytes at `a`, `a + 1`, and so on, modulo 65536. -/
def State.pokeBytes (s : State) (a : Word) : List Byte → State
  | [] => s
  | v :: vs => (s.poke a v).pokeBytes (a + 1) vs

/-- The state with `bytes` placed where the next step fetches: at PC in plain storage, with no hook over those addresses and
the machine running (log 13). -/
def State.placeAtPc (s : State) (bytes : List Byte) : State :=
  let free := s.params.hooks.filter
    (fun k => (List.range bytes.length).all (fun j => !k.covers (s.pc + BitVec.ofNat 16 j)))
  { s with run := .running, params := { s.params with hooks := free } }.pokeBytes s.pc bytes

end Sys2Proof.Machine
end

