-- ==== Sys2Proof/Machine/Step.lean ====
section
/-! DEFINITION. One step of the CORE: one whole instruction (R130, R131). -/

namespace Sys2Proof.Machine

/-- The step (R131): the instruction at PC is fetched and PC advanced, then its action runs on that state. A halted machine has
no step (R138); a byte with no entry raises InvalidOpcode (R135). -/
def step (s : State) : Host.Outcome State Fault Refusal :=
  match s.fetchNext with
  | .next r => exec r.1 r.2
  | .fault f => .fault f
  | .refused q => .refused q

/-- The state with the instruction whose bits are `w`, numbered as spec/opcode_table.json numbers them, placed where the next
step fetches it (log 13). -/
def State.withFetchWord (s : State) (nbits w : Nat) : State := s.placeAtPc (tableBytes nbits w)

end Sys2Proof.Machine
end

