-- ==== Sys2Proof/Machine/AsmText.lean ====
section
/-! DEFINITION. The text side of the encoder: lines, comments, labels, mnemonics, operands and numeric literals (R100 to R108).
The source is the list of its characters, the UTF-8 text already decoded (log 12). -/

namespace Sys2Proof.Machine

/-- A source text or a part of one. -/
abbrev Text : Type := List Char

/-- The classes of AssemblyError (R114): the source's own four, the first of them told apart as R103 and R104 do, and the
malformed tokens and the oversized image that R114 adds. -/
inductive AsmErrorKind where
  | unknownMnemonic
  | operandShape
  | undefinedLabel
  | duplicateLabel
  | literalRange
  | labelName
  | literalForm
  | imageSize
  deriving DecidableEq, Repr

/-- An AssemblyError: the source line it names and its class (R114, R217). -/
structure AsmError where
  line : Nat
  kind : AsmErrorKind
  deriving DecidableEq, Repr

/-- An operand as its spelling classifies it (R104). -/
inductive Operand where
  | reg (r : Reg)
  | m
  | pair (p : Pair)
  | lit (n : Nat)
  | label (name : Text)
  deriving DecidableEq, Repr

/-- The operand value of a source instruction, before labels are resolved (R107, R108). -/
inductive SrcValue where
  | absent
  | lit (n : Nat)
  | label (name : Text)
  deriving DecidableEq, Repr

/-- An instruction of the source: its table entry and its operand value. -/
structure SrcInstr where
  form : Form
  value : SrcValue
  deriving DecidableEq, Repr

/-! ## Lines -/

/-- Cut a text at every `c`, which is dropped. -/
def cutAt (c : Char) : Text → List Text
  | [] => [[]]
  | x :: xs =>
    match cutAt c xs with
    | [] => [[x]]
    | p :: ps => if x = c then [] :: p :: ps else (x :: p) :: ps

/-- A space or a tab (R101, D21). -/
def isBlank (c : Char) : Bool := c = ' ' || c = '\t'

/-- A text without its leading and trailing spaces and tabs. -/
def trim (t : Text) : Text := (((t.dropWhile isBlank).reverse).dropWhile isBlank).reverse

/-- A text in lower case; only the letters A to Z change (R103, R104). -/
def lower (t : Text) : Text := t.map Char.toLower

/-- Drop one carriage return at the end. -/
def dropCr (t : Text) : Text := if t.getLast? = some '\r' then t.dropLast else t

/-- The lines of a source: cut at each line feed, a carriage return just before a line feed dropped (R101). -/
def sourceLines (src : Text) : List Text :=
  match (cutAt '\n' src).reverse with
  | [] => []
  | last :: before => (before.map dropCr).reverse ++ [last]

/-- Lines with their numbers, counted from `n`. -/
def numbered : Nat → List Text → List (Nat × Text)
  | _, [] => []
  | n, t :: ts => (n, t) :: numbered (n + 1) ts

/-- A line without its comment and without the blanks around it (R101). -/
def codeOf (line : Text) : Text := trim (line.takeWhile (fun c => c != ';'))

/-! ## Names -/

/-- The register of a spelling (R104). -/
def regNamed (t : Text) : Option Reg :=
  match lower t with
  | ['a'] => some .a
  | ['b'] => some .b
  | ['c'] => some .c
  | ['d'] => some .d
  | ['e'] => some .e
  | ['h'] => some .h
  | ['l'] => some .l
  | _ => none

/-- The pair of a spelling (R105). -/
def pairNamed (t : Text) : Option Pair :=
  match lower t with
  | ['b', 'c'] => some .bc
  | ['d', 'e'] => some .de
  | ['h', 'l'] => some .hl
  | _ => none

/-- The mnemonic of a spelling (R103). -/
def mnemonicNamed (t : Text) : Option Mnemonic :=
  match lower t with
  | ['m', 'o', 'v'] => some .mov
  | ['m', 'v', 'i'] => some .mvi
  | ['l', 'x', 'i'] => some .lxi
  | ['l', 'd', 'a'] => some .lda
  | ['s', 't', 'a'] => some .sta
  | ['p', 'u', 's', 'h'] => some .push
  | ['p', 'o', 'p'] => some .pop
  | ['i', 'n', 'r'] => some .inr
  | ['d', 'c', 'r'] => some .dcr
  | ['i', 'n', 'x'] => some .inx
  | ['j', 'm', 'p'] => some .jmp
  | ['c', 'a', 'l', 'l'] => some .call
  | ['r', 'e', 't'] => some .ret
  | ['h', 'l', 't'] => some .hlt
  | _ => none

/-- A letter A to Z or a to z, or an underscore. -/
def isNameStart (c : Char) : Bool := c.isAlpha || c = '_'

/-- A name character: a letter, a digit or an underscore. -/
def isNameChar (c : Char) : Bool := c.isAlphanum || c = '_'

/-- The text matches `[A-Za-z_][A-Za-z0-9_]*` (R102, R104). -/
def isName : Text → Bool
  | [] => false
  | c :: cs => isNameStart c && cs.all isNameChar

/-- A label may have this name: well formed and no register, pair or mnemonic in any letter case (R102, D23). -/
def labelNameOk (t : Text) : Bool :=
  isName t && (regNamed t).isNone && (pairNamed t).isNone && (mnemonicNamed t).isNone

/-! ## Numeric literals -/

/-- The value of a digit 0 to 9 or a to f. -/
def digitValue (c : Char) : Option Nat :=
  if '0' ≤ c ∧ c ≤ '9' then some (c.toNat - '0'.toNat)
  else if 'a' ≤ c ∧ c ≤ 'f' then some (c.toNat - 'a'.toNat + 10)
  else none

/-- The value of digits in a base, most significant first, continuing from `acc`; `none` at a character that is no digit of the
base. -/
def digitsFrom (base : Nat) : Nat → Text → Option Nat
  | acc, [] => some acc
  | acc, c :: cs =>
    match digitValue c with
    | some d => if d < base then digitsFrom base (base * acc + d) cs else none
    | none => none

/-- The value of one or more digits in a base. -/
def digits (base : Nat) : Text → Option Nat
  | [] => none
  | t@(_ :: _) => digitsFrom base 0 t

/-- The text without the `h` at its end, if there is one. -/
def dropH (t : Text) : Option Text := if t.getLast? = some 'h' then some t.dropLast else none

/-- The value of a numeric literal in lower case: decimal, or hexadecimal with the prefix `0x`, the suffix `h` or both (R106,
D22). -/
def literalLower (t : Text) : Option Nat :=
  match digits 10 t with
  | some n => some n
  | none =>
    match t with
    | '0' :: 'x' :: ds => digits 16 ((dropH ds).getD ds)
    | c :: _ => if c.isDigit then (dropH t).bind (digits 16) else none
    | [] => none

/-- The value of a numeric literal, letters in either case (R106). -/
def literal (t : Text) : Option Nat := literalLower (lower t)

/-! ## Operands and shapes -/

/-- Classify an operand by its spelling (R104). -/
def operandOf (mForms : Bool) (t : Text) : Except AsmErrorKind Operand :=
  match regNamed t with
  | some r => .ok (.reg r)
  | none =>
    if mForms && lower t == ['m'] then .ok .m
    else
      match pairNamed t with
      | some p => .ok (.pair p)
      | none =>
        if (t.head?.map Char.isDigit).getD false then
          match literal t with
          | some n => .ok (.lit n)
          | none => .error .literalForm
        else if isName t then .ok (.label t)
        else .error .operandShape

/-- The operands of a text after the mnemonic: none when it is empty, else split at commas and trimmed (R104). -/
def operandsOf (mForms : Bool) (t : Text) : Except AsmErrorKind (List Operand) :=
  if t = [] then .ok [] else (cutAt ',' t).mapM (fun u => operandOf mForms (trim u))

/-- An operand where a 16-bit value stands: a literal or a label reference (R107, R108). -/
def Operand.value16 : Operand → Option SrcValue
  | .lit n => some (.lit n)
  | .label l => some (.label l)
  | .reg _ | .m | .pair _ => none

/-- The entry of a mnemonic with its operands (R108); `none` where the shape is not in the opcode table. -/
def shapeOf : Mnemonic → List Operand → Option SrcInstr
  | .mov, [.reg dst, .reg src] => some ⟨.movRR dst src, .absent⟩
  | .mov, [.reg dst, .m] => some ⟨.movRM dst, .absent⟩
  | .mov, [.m, .reg src] => some ⟨.movMR src, .absent⟩
  | .mvi, [.reg dst, .lit n] => some ⟨.mviR dst, .lit n⟩
  | .mvi, [.m, .lit n] => some ⟨.mviM, .lit n⟩
  | .lxi, [.pair p, v] => v.value16.map (fun w => ⟨.lxi p, w⟩)
  | .lda, [v] => v.value16.map (fun w => ⟨.lda, w⟩)
  | .sta, [v] => v.value16.map (fun w => ⟨.sta, w⟩)
  | .push, [.pair p] => some ⟨.push p, .absent⟩
  | .pop, [.pair p] => some ⟨.pop p, .absent⟩
  | .inr, [.reg r] => some ⟨.inrR r, .absent⟩
  | .inr, [.m] => some ⟨.inrM, .absent⟩
  | .dcr, [.reg r] => some ⟨.dcrR r, .absent⟩
  | .dcr, [.m] => some ⟨.dcrM, .absent⟩
  | .inx, [.pair p] => some ⟨.inx p, .absent⟩
  | .jmp, [v] => v.value16.map (fun w => ⟨.jmp, w⟩)
  | .call, [v] => v.value16.map (fun w => ⟨.call, w⟩)
  | .ret, [] => some ⟨.ret, .absent⟩
  | .hlt, [] => some ⟨.hlt, .absent⟩
  | _, _ => none

/-! ## A line -/

/-- Split a line's code at its label declaration, if it has one (R102): the name before the first `:`, and the rest. -/
def splitLabel (code : Text) : Except AsmErrorKind (Option Text × Text) :=
  if ':' ∈ code then
    let name := trim (code.takeWhile (fun c => c != ':'))
    let rest := trim ((code.dropWhile (fun c => c != ':')).drop 1)
    if labelNameOk name then .ok (some name, rest) else .error .labelName
  else .ok (none, code)

/-- The instruction of the code after any label, if there is one (R103, R104, R108). -/
def instrOf (mForms : Bool) (code : Text) : Except AsmErrorKind (Option SrcInstr) :=
  if code = [] then .ok none
  else
    match mnemonicNamed (code.takeWhile (fun c => !isBlank c)) with
    | none => .error .unknownMnemonic
    | some mn =>
      match operandsOf mForms (trim (code.dropWhile (fun c => !isBlank c))) with
      | .error e => .error e
      | .ok ops =>
        match shapeOf mn ops with
        | none => .error .operandShape
        | some i => .ok (some i)

end Sys2Proof.Machine
end

