-- ==== Sys2Proof/Machine/Assembler.lean ====
section
/-! DEFINITION. The two passes of the encoder (R110, R111) and the image they make (R113). The encoder is a pure function of the
source text (R116); its errors are those of R114 in the order of R115 (log 8 to 11). -/

namespace Sys2Proof.Machine

/-- The label table: each label with its address (R110). -/
abbrev LabelTable : Type := List (Text × Nat)

/-- The address of a label. -/
def LabelTable.find (labels : LabelTable) (name : Text) : Option Nat := List.lookup name labels

/-- Declare a label at an address; refused when it is declared already (R114). -/
def LabelTable.declare (labels : LabelTable) (label : Option Text) (addr : Nat) : Except AsmErrorKind LabelTable :=
  match label with
  | none => .ok labels
  | some name => if (labels.find name).isSome then .error .duplicateLabel else .ok (labels ++ [(name, addr)])

/-- How many bytes the instruction of a line takes. -/
def srcLength (i : Option SrcInstr) : Nat := (i.map (fun j => j.form.format.length)).getD 0

/-- One line of pass 1: the label is recorded at the address counter, the counter goes up by the instruction's length, and may
not pass 65536 (R110, R113). -/
def pass1Line (mForms : Bool) (line : Text) (addr : Nat) (labels : LabelTable) : Except AsmErrorKind (Nat × LabelTable) :=
  match splitLabel (codeOf line) with
  | .error e => .error e
  | .ok (label, rest) =>
    match labels.declare label addr with
    | .error e => .error e
    | .ok labels' =>
      match instrOf mForms rest with
      | .error e => .error e
      | .ok i => if addr + srcLength i ≤ Config.memSize then .ok (addr + srcLength i, labels') else .error .imageSize

/-- Pass 1 (R110): all lines in source order, from an address counter and the labels so far, to the completed label table; the
first line with an error ends it (R115). -/
def pass1 (mForms : Bool) : List (Nat × Text) → Nat → LabelTable → Except AsmError LabelTable
  | [], _, labels => .ok labels
  | (n, line) :: rest, addr, labels =>
    match pass1Line mForms line addr labels with
    | .error e => .error ⟨n, e⟩
    | .ok (addr', labels') => pass1 mForms rest addr' labels'

/-- The largest operand value of a format (R106). -/
def Format.maxOperand : Format → Nat
  | .f1 => 0
  | .f2 => 255
  | .f3 => 65535

/-- The operand value of a source instruction: a literal in range, or the address of a defined label (R106, R107). -/
def resolve (labels : LabelTable) (fmt : Format) : SrcValue → Except AsmErrorKind Word
  | .absent => .ok 0
  | .lit n => if n ≤ Format.maxOperand fmt then .ok (BitVec.ofNat 16 n) else .error .literalRange
  | .label name =>
    match labels.find name with
    | none => .error .undefinedLabel
    | some a => if a ≤ Format.maxOperand fmt then .ok (BitVec.ofNat 16 a) else .error .literalRange

/-- The instruction that a source instruction stands for. -/
def SrcInstr.instr (labels : LabelTable) (j : SrcInstr) : Except AsmErrorKind Instr :=
  match resolve labels j.form.format j.value with
  | .error e => .error e
  | .ok v => .ok (j.form.instr v)

/-- One line of pass 2: its instruction, if it has one, with labels substituted (R110). -/
def pass2Line (mForms : Bool) (labels : LabelTable) (line : Text) : Except AsmErrorKind (Option Instr) :=
  match splitLabel (codeOf line) with
  | .error e => .error e
  | .ok (_, rest) =>
    match instrOf mForms rest with
    | .error e => .error e
    | .ok none => .ok none
    | .ok (some j) =>
      match j.instr labels with
      | .error e => .error e
      | .ok i => .ok (some i)

/-- Pass 2 (R110): the instructions of all lines in source order; the first line with an error ends it (R115). -/
def pass2 (mForms : Bool) (labels : LabelTable) : List (Nat × Text) → Except AsmError (List Instr)
  | [] => .ok []
  | (n, line) :: rest =>
    match pass2Line mForms labels line with
    | .error e => .error ⟨n, e⟩
    | .ok i =>
      match pass2 mForms labels rest with
      | .error e => .error e
      | .ok is => .ok (i.toList ++ is)

/-- The instructions a source assembles to: pass 2 after pass 1 has completed the label table (R111). -/
def assembleInstrs (mForms : Bool) (src : Text) : Except AsmError (List Instr) :=
  match pass1 mForms (numbered 1 (sourceLines src)) 0 [] with
  | .error e => .error e
  | .ok labels => pass2 mForms labels (numbered 1 (sourceLines src))

/-- The image: the bytes of the instructions in source order (R112, R113). -/
def imageOf (is : List Instr) : List Byte := is.flatMap encode

/-- The encoder: a source text to its image, or the AssemblyError (R100, R113, R114). -/
def assemble (mForms : Bool) (src : Text) : Except AsmError (List Byte) :=
  match assembleInstrs mForms src with
  | .error e => .error e
  | .ok is => .ok (imageOf is)

end Sys2Proof.Machine
end

