-- ==== Sys2Proof/Machine/Launch.lean ====
section
/-! DEFINITION. The creation of a run by the host (R230, R231, R233): the state record from the launch parameters of R6, the
hooks registered, the image written at address 0, PC 0 and RUNNING; and the launches that are refused (R63, R68, D12, D15; of
several reasons the first in the order of the code, log 16). -/

namespace Sys2Proof.Machine

/-- What the host hands over to create a run (R6, R230). -/
structure Launch where
  /-- INIT_REG. -/
  regs : Regs
  /-- INIT_SP. -/
  sp : Word
  /-- INIT_FLAGS. -/
  flags : Flags
  /-- MEM_INIT, as the cells that differ from `Config.memDefault`; of two cells of one address the later holds
  (log 17). -/
  memInit : List Host.Cell
  /-- IMAGE. -/
  image : List Byte
  /-- HOOKS, in the order of their registration. -/
  hooks : List Hook
  /-- M_FORMS. -/
  mForms : Bool
  /-- DCR_AC. -/
  dcrAc : BitVec 256
  deriving DecidableEq, Repr

/-- Why a launch is refused. -/
inductive LaunchError where
  /-- A hook's range has `hi < lo` (R62). -/
  | hookRange
  /-- A hook's range overlaps one already registered (R63, D15). -/
  | hookOverlap
  /-- The image is longer than 65536 bytes (R68, D12). -/
  | imageTooLong
  /-- An image byte falls in a hooked range (R230, D15). -/
  | imageHooked
  deriving DecidableEq, Repr

/-- A memory with these cells, in canonical form; an address is taken modulo 65536. -/
def Memory.ofCells (cells : List Host.Cell) : Memory :=
  cells.foldl (fun m x => Memory.set m (x.1 % Config.memSize) x.2) []

/-- Step 1 of R230: the state record, with no hook yet. -/
def Launch.record (k : Launch) : State where
  regs := k.regs
  sp := k.sp
  pc := 0
  flags := k.flags
  run := .running
  mem := Memory.ofCells k.memInit
  params := ⟨[], k.mForms, k.dcrAc⟩
  draws := 0
  hookLog := []

/-- Step 2 of R230: register one hook, refused when its range is no range or overlaps another (R62, R63). -/
def State.registerHook (s : State) (k : Hook) : Except LaunchError State :=
  if k.hi < k.lo then .error .hookRange
  else if s.params.hooks.any (fun j => j.overlaps k) then .error .hookOverlap
  else .ok { s with params := { s.params with hooks := s.params.hooks ++ [k] } }

/-- Register hooks one after another. -/
def State.registerHooks (s : State) : List Hook → Except LaunchError State
  | [] => .ok s
  | k :: ks => (s.registerHook k).bind (fun t => t.registerHooks ks)

/-- Step 3 of R230: write the image at address 0 in plain storage; refused when it does not fit (D12) or meets a hook (D15). -/
def State.loadImage (s : State) (image : List Byte) : Except LaunchError State :=
  if Config.memSize < image.length then .error .imageTooLong
  else if s.params.hooks.any (fun k => decide (k.lo.toNat < image.length)) then .error .imageHooked
  else .ok (s.pokeBytes 0 image)

/-- Steps 1 to 4 of R230: the state a run starts from. Step 4, PC 0 and RUNNING, is in the record already. -/
def Launch.state (k : Launch) : Except LaunchError State :=
  (k.record.registerHooks k.hooks).bind (fun s => s.loadImage k.image)

end Sys2Proof.Machine
end

