-- ==== Sys2Proof/Machine/Run.lean ====
section
/-! DEFINITION. A run: steps until the machine halts, until a step faults, or until the host stops the run between two steps
(R139, R140, R230 step 5, R236; log 18). -/

namespace Sys2Proof.Machine

/-- How a run ended (R139). -/
inductive RunEnd where
  /-- An HLT executed, or the machine was halted from the start. -/
  | halted
  /-- A step raised the fault; the state is the one before that step. -/
  | faulted (f : Fault)
  /-- The host stopped the run between two steps. -/
  | stopped
  deriving DecidableEq, Repr

/-- Run until the machine halts or faults, the host stopping it after `n` steps (R139, R236): how the run ended and the state
exposed for inspection (R215). -/
def runFor : Nat → State → RunEnd × State
  | 0, s =>
    match s.run with
    | .halted => (.halted, s)
    | .running => (.stopped, s)
  | n + 1, s =>
    match step s with
    | .next t => runFor n t
    | .fault f => (.faulted f, s)
    | .refused _ => (.halted, s)

end Sys2Proof.Machine
end

