-- ==== Sys2Proof/WellFormed.lean ====
section
/-! DEFINITION. Which instructions exist. Registers, pairs and operand values are in range by their types (R24, R95), so one
check is left: the five forms with the memory operand M exist only when the parameter M_FORMS is true (R97, D3). -/

namespace Sys2Proof

/-- The instruction exists in a machine with this M_FORMS (R97). -/
def Instr.wellFormed (mForms : Bool) (i : Instr) : Bool :=
  !i.form.usesM || mForms

end Sys2Proof
end

