-- ==== Sys2Proof/Safety.lean ====
section
/-! DEFINITION. The words in which claims about the machine are said: the invariant of its states, what a state must meet for a
step to succeed, what a read or a write of one address gives with and without a hook, the accesses an instruction makes (R60),
the flags it declares (R30), and the frames. No definition here is used by the machine; each says in its own way what the
spec says, so that a claim compares the two. -/

namespace Sys2Proof.Machine

/-! ## The invariant and a safe step -/

/-- The address of a hooked access. -/
def HookEvent.addr : HookEvent → Word
  | .read a _ => a
  | .write a _ => a

/-- The access is a read. -/
def HookEvent.isRead : HookEvent → Bool
  | .read _ _ => true
  | .write _ _ => false

/-- What every state of a run meets: memory in its canonical form, a hook list that R62 and R63 allow, a record that holds
hooked addresses only, and one draw counted for each recorded read (R64). -/
abbrev State.Inv (s : State) : Prop :=
  Memory.wf s.mem ∧ hooksOk s.params.hooks ∧ (∀ e ∈ s.hookLog, s.hooked e.addr = true) ∧
    s.draws = s.hookLog.countP HookEvent.isRead

/-- A safe step: the machine is running and the byte at PC has an entry (R131, R135). -/
def State.CanStep (s : State) : Prop :=
  s.run = .running ∧ (lookup s.params.mForms (s.readByte s.pc).1).isSome = true

/-! ## One byte, with and without a hook -/

/-- The byte that a read of `a` gives when `n` draws have been made: the draw where a hook covers `a` (R52, R64), else
`Mem[a]`. -/
def State.valueAt (s : State) (n : Nat) (a : Word) : Byte :=
  if s.hooked a = true then Config.hookByte n else s.peek a

/-- How many draws a read of `a` makes (R64). -/
def State.drawsAt (s : State) (a : Word) : Nat := if s.hooked a = true then 1 else 0

/-- What a read of `a` adds to the record when `n` draws have been made (R64, D15). -/
def State.readEvents (s : State) (n : Nat) (a : Word) : List HookEvent :=
  if s.hooked a = true then [.read a (Config.hookByte n)] else []

/-- What a write of `v` to `a` adds to the record (R64, D15). -/
def State.writeEvents (s : State) (a : Word) (v : Byte) : List HookEvent :=
  if s.hooked a = true then [.write a v] else []

/-- `Mem[b]` after a write of `v` to `a`: changed only at `a`, and only where no hook covers it (R53). -/
def State.storedAt (s : State) (a : Word) (v : Byte) (b : Word) : Byte :=
  if b = a ∧ s.hooked a = false then v else s.peek b

/-! ## Frames -/

/-- Every register but those in `rs` is as before. -/
def KeepsRegsBut (rs : List Reg) (s t : State) : Prop := ∀ q, q ∉ rs → t.reg q = s.reg q

/-- Every byte of memory is as before. -/
def KeepsMem (s t : State) : Prop := ∀ a, t.peek a = s.peek a

/-- Flags, run status and the parameters are as before. -/
def KeepsStatus (s t : State) : Prop := t.flags = s.flags ∧ t.run = s.run ∧ t.params = s.params

/-- SP and PC are as before. -/
def KeepsPointers (s t : State) : Prop := t.sp = s.sp ∧ t.pc = s.pc

/-- The record of hooked accesses and the draws are as before. -/
def KeepsHooks (s t : State) : Prop := t.draws = s.draws ∧ t.hookLog = s.hookLog

/-! ## Flags by name -/

/-- The five flags by name (R28). -/
inductive FlagName where
  | z | s | p | cy | ac
  deriving DecidableEq, Repr

/-- The flag of a name. -/
def Flags.get (f : Flags) : FlagName → Bool
  | .z => f.z
  | .s => f.s
  | .p => f.p
  | .cy => f.cy
  | .ac => f.ac

/-- The flags a mnemonic declares affected: the table of R30. -/
def declaredFlags : Mnemonic → List FlagName
  | .inr | .dcr => [.z, .s, .p, .ac]
  | .mov | .mvi | .lxi | .lda | .sta | .push | .pop | .inx | .jmp | .call | .ret | .hlt => []

/-- How many of the eight bits are 1 (R11). -/
def onesCount (v : Byte) : Nat := (List.range 8).countP (fun j => v.getLsbD j)

/-- The flags `g` after an instruction that declares Z, S, P and AC affected, with the result `v` and the auxiliary carry `ac`,
from the flags `f` before it: CY is kept (R29, R30). -/
def FlagsFromResult (f g : Flags) (v : Byte) (ac : Bool) : Prop :=
  g.z = decide (v = 0) ∧ g.s = v.getLsbD 7 ∧ g.p = decide (onesCount v % 2 = 0) ∧ g.ac = ac ∧ g.cy = f.cy

/-! ## Bytes in memory and encodings -/

/-- The `n` bytes of plain storage from `a` on, addresses modulo 65536. -/
def State.bytesAt (s : State) (a : Word) (n : Nat) : List Byte :=
  (List.range n).map (fun j => s.peek (a + BitVec.ofNat 16 j))

/-- No hook covers the `n` addresses from `a` on. -/
def State.Unhooked (s : State) (a : Word) (n : Nat) : Prop := ∀ j < n, s.hooked (a + BitVec.ofNat 16 j) = false

/-- The instruction's bytes are `bs`: the encoder emits them, their number is its length, and the decoder reads them as that
instruction wherever it exists. -/
def HasEncoding (i : Instr) (bs : List Byte) : Prop :=
  encode i = bs ∧ i.length = bs.length ∧
    ∀ mForms rest, i.wellFormed mForms = true → decode mForms (bs ++ rest) = .ok (i, rest)

/-- The instruction exists with M_FORMS true and its opcode byte has no entry with M_FORMS false (R97). -/
def OnlyWithMForms (i : Instr) : Prop := i.wellFormed true = true ∧ lookup false i.form.opcode = none

/-- These bytes have no entry, whatever M_FORMS is (R94). -/
def NoEntry (ops : List Byte) : Prop := ∀ op ∈ ops, ∀ mForms, lookup mForms op = none

/-- The instruction exists whatever M_FORMS is. -/
def AlwaysExists (i : Instr) : Prop := ∀ mForms, i.wellFormed mForms = true

/-! ## The accesses of an instruction -/

/-- A byte access to memory. -/
inductive Access where
  | read (a : Word)
  | write (a : Word)
  deriving DecidableEq, Repr

/-- The address of an access. -/
def Access.addr : Access → Word
  | .read a => a
  | .write a => a

/-- The access of a recorded event, less its byte. -/
def HookEvent.access : HookEvent → Access
  | .read a _ => .read a
  | .write a _ => .write a

/-- The reads of the fetch of an instruction of `n` bytes at `pc`, in order (R60, first row). -/
def fetchAccesses (pc : Word) (n : Nat) : List Access := (List.range n).map (fun j => .read (pc + BitVec.ofNat 16 j))

/-- The data accesses of an instruction after its fetch, in order, from the pair HL and SP before it (R60). -/
def dataAccesses (hl sp : Word) : Instr → List Access
  | .movRM _ => [.read hl]
  | .movMR _ | .mviM _ => [.write hl]
  | .inrM | .dcrM => [.read hl, .write hl]
  | .lda a16 => [.read a16]
  | .sta a16 => [.write a16]
  | .push _ | .call _ => [.write (sp - 2), .write (sp - 1)]
  | .pop _ | .ret => [.read sp, .read (sp + 1)]
  | .movRR _ _ | .mviR _ _ | .lxi _ _ | .inrR _ | .dcrR _ | .inx _ | .jmp _ | .hlt => []

/-! ## Several instructions -/

/-- The actions of several instructions one after another, ending at the first that gives no next state. -/
def execAll : List Instr → State → Outcome
  | [], s => .next s
  | i :: is, s =>
    match exec i s with
    | .next t => execAll is t
    | .fault f => .fault f
    | .refused q => .refused q

/-! ## A source line for an instruction -/

/-- The hexadecimal digit of a number below 16. -/
def hexChar (n : Nat) : Char := if n < 10 then Char.ofNat (48 + n) else Char.ofNat (87 + n)

/-- A byte in hexadecimal, with the prefix 0x (R106). -/
def spellByte (v : Byte) : Text := ['0', 'x', hexChar (v.toNat / 16), hexChar (v.toNat % 16)]

/-- A 16-bit value in hexadecimal, with the prefix 0x (R106). -/
def spellWord (v : Word) : Text :=
  ['0', 'x', hexChar (v.toNat / 4096), hexChar (v.toNat / 256 % 16), hexChar (v.toNat / 16 % 16), hexChar (v.toNat % 16)]

/-- The spelling of a register (R104). -/
def spellReg : Reg → Text
  | .a => ['a']
  | .b => ['b']
  | .c => ['c']
  | .d => ['d']
  | .e => ['e']
  | .h => ['h']
  | .l => ['l']

/-- The spelling of a pair (R105). -/
def spellPair : Pair → Text
  | .bc => ['b', 'c']
  | .de => ['d', 'e']
  | .hl => ['h', 'l']

/-- One source line that asks for the instruction (R108). -/
def spell : Instr → Text
  | .movRR dst src => "MOV ".toList ++ spellReg dst ++ ",".toList ++ spellReg src
  | .movRM dst => "MOV ".toList ++ spellReg dst ++ ",m".toList
  | .movMR src => "MOV m,".toList ++ spellReg src
  | .mviR dst v => "MVI ".toList ++ spellReg dst ++ ",".toList ++ spellByte v
  | .mviM v => "MVI m,".toList ++ spellByte v
  | .lxi p v => "LXI ".toList ++ spellPair p ++ ",".toList ++ spellWord v
  | .lda v => "LDA ".toList ++ spellWord v
  | .sta v => "STA ".toList ++ spellWord v
  | .push p => "PUSH ".toList ++ spellPair p
  | .pop p => "POP ".toList ++ spellPair p
  | .inrR r => "INR ".toList ++ spellReg r
  | .inrM => "INR m".toList
  | .dcrR r => "DCR ".toList ++ spellReg r
  | .dcrM => "DCR m".toList
  | .inx p => "INX ".toList ++ spellPair p
  | .jmp v => "JMP ".toList ++ spellWord v
  | .call v => "CALL ".toList ++ spellWord v
  | .ret => "RET".toList
  | .hlt => "HLT".toList

/-! ## Two states -/

/-- Two states that differ at most in the memory cells under a hook. -/
def AgreeOffHooks (s t : State) : Prop :=
  t.regs = s.regs ∧ t.sp = s.sp ∧ t.pc = s.pc ∧ t.flags = s.flags ∧ t.run = s.run ∧ t.params = s.params ∧
    t.draws = s.draws ∧ t.hookLog = s.hookLog ∧ ∀ a, s.hooked a = false → t.peek a = s.peek a

end Sys2Proof.Machine
end

