-- ==== Sys2Proof/Certificates/Slice0/Obligations.lean ====
section
/-! DEFINITION. The statements for the provers. Each docstring names the rules of the spec it formalises. A statement with `s`
free speaks of every state, so of every memory content, every hook list, both values of M_FORMS and every DCR_AC.

What the statements take from the spec's own decisions (92_eei_decisions.md, log 15), beside what a docstring names: every opcode
byte but 3E and 06 is D2 (log 7); the forms with M are D3; the destination of MOV is D21; the bytes without an entry are D1, D4 and
D6; P is 1 on an even count by D7, AC after INR is D8, AC after DCR is the open parameter of D9; a fetch under a hook is D14 and
what a hook does is D15; the order of a word's two bytes is D13. `draws` and `hookLog` are the model's form of the draws and the
history of R64 (log 1, 4). -/

open Sys2Proof Sys2Proof.Machine

/-! ## The opcode bytes as the instruction rules write them out -/

/-- The MVI bytes of R150. -/
def Sys2Proof.SpecBytes.mvi : Reg → Byte
  | .b => 0x06 | .c => 0x0E | .d => 0x16 | .e => 0x1E | .h => 0x26 | .l => 0x2E | .a => 0x3E

/-- The LXI bytes of R154. -/
def Sys2Proof.SpecBytes.lxi : Pair → Byte
  | .bc => 0x01 | .de => 0x11 | .hl => 0x21

/-- The row of MOV bytes of a destination (R92). -/
def Sys2Proof.SpecBytes.movRow : Reg → Byte
  | .b => 0x40 | .c => 0x48 | .d => 0x50 | .e => 0x58 | .h => 0x60 | .l => 0x68 | .a => 0x78

/-- The column of a source in a MOV row (R92). -/
def Sys2Proof.SpecBytes.movColumn : Reg → Byte
  | .b => 0 | .c => 1 | .d => 2 | .e => 3 | .h => 4 | .l => 5 | .a => 7

/-- The bytes of MOV r,M (R156). -/
def Sys2Proof.SpecBytes.movFromM : Reg → Byte
  | .b => 0x46 | .c => 0x4E | .d => 0x56 | .e => 0x5E | .h => 0x66 | .l => 0x6E | .a => 0x7E

/-- The bytes of MOV M,r (R157). -/
def Sys2Proof.SpecBytes.movToM : Reg → Byte
  | .b => 0x70 | .c => 0x71 | .d => 0x72 | .e => 0x73 | .h => 0x74 | .l => 0x75 | .a => 0x77

/-- The PUSH bytes of R158. -/
def Sys2Proof.SpecBytes.push : Pair → Byte
  | .bc => 0xC5 | .de => 0xD5 | .hl => 0xE5

/-- The POP bytes of R159. -/
def Sys2Proof.SpecBytes.pop : Pair → Byte
  | .bc => 0xC1 | .de => 0xD1 | .hl => 0xE1

/-- The INR bytes of R170. -/
def Sys2Proof.SpecBytes.inr : Reg → Byte
  | .b => 0x04 | .c => 0x0C | .d => 0x14 | .e => 0x1C | .h => 0x24 | .l => 0x2C | .a => 0x3C

/-- The DCR bytes of R172. -/
def Sys2Proof.SpecBytes.dcr : Reg → Byte
  | .b => 0x05 | .c => 0x0D | .d => 0x15 | .e => 0x1D | .h => 0x25 | .l => 0x2D | .a => 0x3D

/-- The INX bytes of R174. -/
def Sys2Proof.SpecBytes.inx : Pair → Byte
  | .bc => 0x03 | .de => 0x13 | .hl => 0x23

/-! ## Encoding -/

/-- A few words written out from the encodings of R91 decode to the instruction they stand for, one for each family.
The opcode bytes but 3E and 06 are the spec's decision D2 (log 7). -/
def Obligations.SpecWordsDecode : Prop :=
  decode true [0x3E, 0x01] = .ok (.mviR .a 1, []) ∧ decode true [0x06, 0x02] = .ok (.mviR .b 2, []) ∧
    decode true [0x11, 0xFF, 0x00] = .ok (.lxi .de 0x00FF, []) ∧ decode true [0x5E] = .ok (.movRM .e, []) ∧
    decode true [0x25] = .ok (.dcrR .h, []) ∧ decode true [0xCD, 0x34, 0x12] = .ok (.call 0x1234, []) ∧
    decode true [0x76] = .ok (.hlt, []) ∧ decode false [0x5E] = .error (.invalidOpcode 0x5E)

/-- Decode of encode is the instruction, for every well-formed instruction with every operand value (R117). -/
def Obligations.DecodeOfEncode : Prop :=
  ∀ mForms i rest, Instr.wellFormed mForms i = true → decode mForms (encode i ++ rest) = .ok (i, rest)

/-- Bytes that decode are the encoding of what they decode to, and that instruction exists (R117, the other direction). -/
def Obligations.EncodeOfDecode : Prop :=
  ∀ mForms bs i rest, decode mForms bs = .ok (i, rest) → encode i ++ rest = bs ∧ Instr.wellFormed mForms i = true

/-- The round trip in memory (R117): the bytes of an instruction that exists, placed in memory at any address, decode there to
it, and its length is the number of bytes emitted; whatever decodes at an address has there the bytes that encode it; and an
instruction affects no flag that the table does not declare for it. -/
def Obligations.RoundTripInMemory : Prop :=
  (∀ (s : State) a i, Instr.wellFormed s.params.mForms i = true → s.Unhooked a i.length →
    s.bytesAt a i.length = encode i → s.decodeAt a = some (i, s)) ∧
  (∀ i, (encode i).length = i.length) ∧
  (∀ (s : State) a i u, s.decodeAt a = some (i, u) → s.Unhooked a i.length → encode i = s.bytesAt a i.length) ∧
  (∀ i s t, exec i s = .next t → ∀ f, f ∉ declaredFlags i.form.mnemonic → t.flags.get f = s.flags.get f)

/-- The table of R93 says what the bit patterns of R91 say through the fields and codes of R82, R84 and R85. -/
def Obligations.TableAgreesWithFields : Prop := ∀ op, lookup true op = lookupByFields op

/-- No opcode byte has two entries and no entry two opcode bytes: the byte of an entry finds that entry, and an entry that is
found has that byte (R99). With M_FORMS false exactly the entries with M are gone (R97). -/
def Obligations.TableIsInjective : Prop :=
  (∀ f, lookup true f.opcode = some f) ∧ (∀ op f, lookup true op = some f → f.opcode = op) ∧
    ∀ op f, lookup false op = some f ↔ lookup true op = some f ∧ f.usesM = false

/-- The bytes of R94's list have no entry, and every byte outside it has one. -/
def Obligations.IllegalBytesAreThoseListed : Prop :=
  ∀ op : Byte, lookup true op = none ↔
    op.toNat ∈ [0x00, 0x02, 0x0F, 0x10, 0x12, 0x1F, 0x20, 0x22, 0x2F, 0x30, 0x31, 0x33, 0x3B, 0x3F, 0xC2, 0xC4] ∨
    (0x07 ≤ op.toNat ∧ op.toNat ≤ 0x0B) ∨ (0x17 ≤ op.toNat ∧ op.toNat ≤ 0x1B) ∨ (0x27 ≤ op.toNat ∧ op.toNat ≤ 0x2B) ∨
    (0x37 ≤ op.toNat ∧ op.toNat ≤ 0x39) ∨ (0x80 ≤ op.toNat ∧ op.toNat ≤ 0xC0) ∨ (0xC6 ≤ op.toNat ∧ op.toNat ≤ 0xC8) ∨
    (0xCA ≤ op.toNat ∧ op.toNat ≤ 0xCC) ∨ (0xCE ≤ op.toNat ∧ op.toNat ≤ 0xD0) ∨ (0xD2 ≤ op.toNat ∧ op.toNat ≤ 0xD4) ∨
    (0xD6 ≤ op.toNat ∧ op.toNat ≤ 0xE0) ∨ (0xE2 ≤ op.toNat ∧ op.toNat ≤ 0xE4) ∨ 0xE6 ≤ op.toNat

/-- The byte length of an entry is one more than the operand bytes its addressing modes imply (R83, R86). -/
def Obligations.LengthFollowsFromModes : Prop :=
  ∀ f : Form, f.format.length = 1 + (f.modes.map AddrMode.operandBytes).sum

/-! ## The step -/

/-- The step (R131): when the bytes at PC decode, the step is the action of the instruction on the state after the reads with PC
advanced by its length; when they do not, the step raises InvalidOpcode(PC). -/
def Obligations.StepRunsDecodedInstruction : Prop :=
  (∀ s i u, s.run = .running → s.decodeAt s.pc = some (i, u) →
    step s = exec i { u with pc := s.pc + BitVec.ofNat 16 i.length }) ∧
  (∀ s, s.run = .running → s.decodeAt s.pc = none → step s = .fault (.invalidOpcode s.pc))

/-- Decode (R98): the opcode byte is read at `a`, and with no entry nothing more; with an entry of format F1, F2 or F3 it gives
the instruction with no operand, with the byte at `a + 1`, or with the bytes at `a + 1` (low) and `a + 2` (high), read in
that order. A hooked address gives the next draw (R66). Nothing but the record of hooked accesses changes. -/
def Obligations.DecodeReadsOpcodeThenOperands : Prop :=
  ∀ (s : State) a,
    (lookup s.params.mForms (s.valueAt s.draws a) = none → s.decodeAt a = none) ∧
    ∀ f, lookup s.params.mForms (s.valueAt s.draws a) = some f →
      ∃ i u, s.decodeAt a = some (i, u) ∧ KeepsRegsBut [] s u ∧ KeepsPointers s u ∧ KeepsMem s u ∧ KeepsStatus s u ∧
        (f.format = .f1 → i = f.instr 0 ∧ u.draws = s.draws + s.drawsAt a ∧
          u.hookLog = s.hookLog ++ s.readEvents s.draws a) ∧
        (f.format = .f2 → i = f.instr (joinBytes 0 (s.valueAt (s.draws + s.drawsAt a) (a + 1))) ∧
          u.draws = s.draws + s.drawsAt a + s.drawsAt (a + 1) ∧
          u.hookLog = s.hookLog ++ s.readEvents s.draws a ++ s.readEvents (s.draws + s.drawsAt a) (a + 1)) ∧
        (f.format = .f3 → i = f.instr (joinBytes (s.valueAt (s.draws + s.drawsAt a + s.drawsAt (a + 1)) (a + 2))
            (s.valueAt (s.draws + s.drawsAt a) (a + 1))) ∧
          u.draws = s.draws + s.drawsAt a + s.drawsAt (a + 1) + s.drawsAt (a + 2) ∧
          u.hookLog = s.hookLog ++ s.readEvents s.draws a ++ s.readEvents (s.draws + s.drawsAt a) (a + 1) ++
            s.readEvents (s.draws + s.drawsAt a + s.drawsAt (a + 1)) (a + 2))

/-- A step of a running machine has two outcomes, a next state or InvalidOpcode(PC) (R137). With no hook a next state has made
no draw and recorded nothing, so the step is a function of the state of R20 alone. -/
def Obligations.StepHasTwoOutcomes : Prop :=
  (∀ s, s.run = .running → (∃ t, step s = .next t) ∨ step s = .fault (.invalidOpcode s.pc)) ∧
    ∀ s t, step s = .next t → s.params.hooks = [] → t.draws = s.draws ∧ t.hookLog = s.hookLog

/-- InvalidOpcode is raised exactly when the byte read at PC has no entry, and carries PC (R135, R200). A run that faults
exposes the state before the faulting step, with `run` still RUNNING: that PC stays at the byte and nothing changes is the spec's
decision D16 (log 15), and that the draw of a hooked opcode byte is not recorded is the model's inference (log 14). -/
def Obligations.FaultExactlyOnByteWithoutEntry : Prop :=
  (∀ s f, step s = .fault f ↔
    s.run = .running ∧ lookup s.params.mForms (s.valueAt s.draws s.pc) = none ∧ f = .invalidOpcode s.pc) ∧
  ∀ n s f, step s = .fault f → runFor (n + 1) s = (.faulted f, s) ∧ s.run = .running

/-- HLT is the only way into HALTED, and there is no step from HALTED (R35, R138), which is the refusal of log 6. -/
def Obligations.HaltedOnlyByHltAndTerminal : Prop :=
  (∀ s t, step s = .next t → (t.run = .halted ↔ ∃ u, s.decodeAt s.pc = some (.hlt, u))) ∧
  (∀ s, s.run = .halted → step s = .refused .halted ∧ ∀ n, runFor n s = (.halted, s))

/-- PC after a step that is no transfer: PC plus the length, modulo 65536 (R132, R133). -/
def Obligations.PcAdvancesByLength : Prop :=
  ∀ s t i u, step s = .next t → s.decodeAt s.pc = some (i, u) →
    i.form.mnemonic ≠ .jmp → i.form.mnemonic ≠ .call → i.form.mnemonic ≠ .ret →
    t.pc.toNat = (s.pc.toNat + i.length) % 65536

/-- The accesses of a step, as far as hooks see them: those of the fetch and then those of the instruction, in the order of R60,
each on its own address. That a word's byte at the lower address comes first is the spec's own decision D13: R60 says 'The order
of the two calls is this spec's choice' (log 15). -/
def Obligations.AccessesInOrder : Prop :=
  ∀ s t, step s = .next t → ∃ i u, s.decodeAt s.pc = some (i, u) ∧
    t.hookLog.map HookEvent.access = s.hookLog.map HookEvent.access ++
      (fetchAccesses s.pc i.length ++ dataAccesses (s.pair .hl) s.sp i).filter (fun x => s.hooked x.addr)

/-- A step changes no byte of memory but those its instruction writes by R60, and none under a hook (R53). -/
def Obligations.OnlyStoresChangeMemory : Prop :=
  ∀ s t i u, step s = .next t → s.decodeAt s.pc = some (i, u) → ∀ b,
    Access.write b ∉ dataAccesses (s.pair .hl) s.sp i ∨ s.hooked b = true → t.peek b = s.peek b

/-! ## Invariants -/

/-- The state right after reset meets the invariant, which is the model's own (log 1, 3, 4). -/
def Obligations.ResetMeetsInvariant : Prop := State.reset.Inv

/-- Every step keeps the invariant: canonical memory, a legal hook list, a record of hooked addresses only, one draw for each
recorded read. The canonical form, the record and the counter are the model's own (log 1, 3, 4). -/
def Obligations.StepKeepsInvariant : Prop := ∀ s t, s.Inv → step s = .next t → t.Inv

/-- Every state that a launch creates (R230) meets the invariant. Of it R62 and R63 give the legal hook list; the canonical
memory, the record and the draw counter are the model's own choice (log 1, 3, 4). -/
def Obligations.LaunchedStateMeetsInvariant : Prop := ∀ k s, Launch.state k = .ok s → s.Inv

/-- No step writes CY, so CY has its starting value throughout every run (R33). No step writes a parameter (R6, and
R62 for the hooks); that the parameters are fields of the state is the model's choice (log 1). -/
def Obligations.CarryAndParametersNeverChange : Prop :=
  (∀ s t, step s = .next t → t.flags.cy = s.flags.cy ∧ t.params = s.params) ∧
    ∀ n s, (runFor n s).2.flags.cy = s.flags.cy ∧ (runFor n s).2.params = s.params

/-! ## Registers, pairs and memory -/

/-- The pairs are views: a pair reads as its high register times 256 plus its low register, a pair write splits into the two
halves and changes exactly them (R22), and a register write is seen by the next read of its pair (R23). -/
def Obligations.PairsAreViews : Prop :=
  (∀ s : State, (s.pair .bc).toNat = (s.reg .b).toNat * 256 + (s.reg .c).toNat ∧
    (s.pair .de).toNat = (s.reg .d).toNat * 256 + (s.reg .e).toNat ∧
    (s.pair .hl).toNat = (s.reg .h).toNat * 256 + (s.reg .l).toNat) ∧
  (∀ (s : State) p v, ((s.setPair p v).reg (pairHi p)).toNat = v.toNat / 256 ∧
    ((s.setPair p v).reg (pairLo p)).toNat = v.toNat % 256 ∧ KeepsRegsBut [pairHi p, pairLo p] s (s.setPair p v) ∧
    (s.setPair p v).pair p = v) ∧
  (∀ (s : State) p v, (s.setReg (pairHi p) v).pair p = joinBytes v (s.reg (pairLo p)) ∧
    (s.setReg (pairLo p) v).pair p = joinBytes (s.reg (pairHi p)) v)

/-- `read_byte` and `write_byte` (R52, R53): with no hook on the address, the stored byte with nothing changed, and a store to
that cell alone; with a hook, the next draw and the write event, and no cell changed. -/
def Obligations.ByteAccess : Prop :=
  (∀ (s : State) a, s.hooked a = false → s.readByte a = (s.peek a, s)) ∧
  (∀ (s : State) a, s.hooked a = true → (s.readByte a).1 = Config.hookByte s.draws ∧ KeepsMem s (s.readByte a).2 ∧
    (s.readByte a).2.hookLog = s.hookLog ++ [.read a (Config.hookByte s.draws)] ∧
    (s.readByte a).2.draws = s.draws + 1) ∧
  (∀ (s : State) a v b, s.hooked a = false → (s.writeByte a v).peek b = if b = a then v else s.peek b) ∧
  (∀ (s : State) a v, s.hooked a = true →
    KeepsMem s (s.writeByte a v) ∧ (s.writeByte a v).hookLog = s.hookLog ++ [.write a v])

/-- `read_word` and `write_word` (R55, R56), on every address and with each byte sent to its own hook or cell (R66); at the top
of memory the word wraps (R57). The order, low address first, is the spec's decision D13 (log 15). -/
def Obligations.WordAccess : Prop :=
  (∀ (s : State) a, (s.readWord a).1
      = joinBytes (s.valueAt (s.draws + s.drawsAt a) (a + 1)) (s.valueAt s.draws a) ∧
    (s.readWord a).2.hookLog
      = s.hookLog ++ s.readEvents s.draws a ++ s.readEvents (s.draws + s.drawsAt a) (a + 1)) ∧
  (∀ (s : State) a v, (∀ b, (s.writeWord a v).peek b
      = if b = a ∧ s.hooked a = false then loByte v
        else if b = a + 1 ∧ s.hooked (a + 1) = false then hiByte v else s.peek b) ∧
    (s.writeWord a v).hookLog = s.hookLog ++ s.writeEvents a (loByte v) ++ s.writeEvents (a + 1) (hiByte v)) ∧
  (∀ s : State, s.hooked 0xFFFF = false → s.hooked 0 = false →
    (s.readWord 0xFFFF).1 = joinBytes (s.peek 0) (s.peek 0xFFFF) ∧
    ∀ v, (s.writeWord 0xFFFF v).peek 0xFFFF = loByte v ∧ (s.writeWord 0xFFFF v).peek 0 = hiByte v)

/-- With no hook registered the memory operations are plain reads and stores (R67). -/
def Obligations.NoHooksMeansPlainMemory : Prop :=
  ∀ (s : State), s.params.hooks = [] → ∀ a, s.readByte a = (s.peek a, s) ∧
    ∀ v, s.writeByte a v = s.poke a v ∧ ∀ b, (s.poke a v).peek b = if b = a then v else s.peek b

/-! ## Data transfer -/

/-- MVI r,d8 (R150). -/
def Obligations.MviRegister : Prop :=
  ∀ r d8, HasEncoding (.mviR r d8) [SpecBytes.mvi r, d8] ∧ AlwaysExists (.mviR r d8) ∧
    ∀ s, ∃ t, exec (.mviR r d8) s = .next t ∧ t.reg r = d8 ∧ KeepsRegsBut [r] s t ∧ KeepsPointers s t ∧ KeepsMem s t ∧
      KeepsStatus s t ∧ KeepsHooks s t

/-- MVI M,d8 (R151): the byte goes to the address in HL; where that address is hooked, to the hook. -/
def Obligations.MviMemory : Prop :=
  ∀ d8, HasEncoding (.mviM d8) [0x36, d8] ∧ OnlyWithMForms (.mviM d8) ∧
    ∀ s, ∃ t, exec (.mviM d8) s = .next t ∧ (∀ b, t.peek b = s.storedAt (s.pair .hl) d8 b) ∧ KeepsRegsBut [] s t ∧
      KeepsPointers s t ∧ KeepsStatus s t ∧ t.draws = s.draws ∧
      t.hookLog = s.hookLog ++ s.writeEvents (s.pair .hl) d8

/-- LDA a16 (R152). -/
def Obligations.LoadAccumulator : Prop :=
  ∀ a16, HasEncoding (.lda a16) [0x3A, loByte a16, hiByte a16] ∧ AlwaysExists (.lda a16) ∧
    ∀ s, ∃ t, exec (.lda a16) s = .next t ∧ t.reg .a = s.valueAt s.draws a16 ∧ KeepsRegsBut [.a] s t ∧
      KeepsPointers s t ∧ KeepsMem s t ∧ KeepsStatus s t ∧ t.draws = s.draws + s.drawsAt a16 ∧
      t.hookLog = s.hookLog ++ s.readEvents s.draws a16

/-- STA a16 (R153). -/
def Obligations.StoreAccumulator : Prop :=
  ∀ a16, HasEncoding (.sta a16) [0x32, loByte a16, hiByte a16] ∧ AlwaysExists (.sta a16) ∧
    ∀ s, ∃ t, exec (.sta a16) s = .next t ∧ (∀ b, t.peek b = s.storedAt a16 (s.reg .a) b) ∧ KeepsRegsBut [] s t ∧
      KeepsPointers s t ∧ KeepsStatus s t ∧ t.draws = s.draws ∧ t.hookLog = s.hookLog ++ s.writeEvents a16 (s.reg .a)

/-- LXI rp,d16 (R154): the third byte goes to the first-named register, the second byte to the second-named one; there is no
form for SP. -/
def Obligations.LxiPair : Prop :=
  NoEntry [0x31] ∧ ∀ p hi lo,
    HasEncoding (.lxi p (joinBytes hi lo)) [SpecBytes.lxi p, lo, hi] ∧ AlwaysExists (.lxi p (joinBytes hi lo)) ∧
    ∀ s, ∃ t, exec (.lxi p (joinBytes hi lo)) s = .next t ∧ t.reg (pairHi p) = hi ∧ t.reg (pairLo p) = lo ∧
      KeepsRegsBut [pairHi p, pairLo p] s t ∧ KeepsPointers s t ∧ KeepsMem s t ∧ KeepsStatus s t ∧ KeepsHooks s t

/-- MOV r,r' (R155). -/
def Obligations.MovRegister : Prop :=
  ∀ dst src, HasEncoding (.movRR dst src) [SpecBytes.movRow dst + SpecBytes.movColumn src] ∧
    AlwaysExists (.movRR dst src) ∧
    ∀ s, ∃ t, exec (.movRR dst src) s = .next t ∧ t.reg dst = s.reg src ∧ KeepsRegsBut [dst] s t ∧ KeepsPointers s t ∧
      KeepsMem s t ∧ KeepsStatus s t ∧ KeepsHooks s t

/-- MOV r,M (R156): the address is the pair HL before the instruction, also where the destination is H or L. -/
def Obligations.MovFromMemory : Prop :=
  ∀ dst, HasEncoding (.movRM dst) [SpecBytes.movFromM dst] ∧ OnlyWithMForms (.movRM dst) ∧
    ∀ s, ∃ t, exec (.movRM dst) s = .next t ∧ t.reg dst = s.valueAt s.draws (s.pair .hl) ∧ KeepsRegsBut [dst] s t ∧
      KeepsPointers s t ∧ KeepsMem s t ∧ KeepsStatus s t ∧ t.draws = s.draws + s.drawsAt (s.pair .hl) ∧
      t.hookLog = s.hookLog ++ s.readEvents s.draws (s.pair .hl)

/-- MOV M,r (R157); the byte 0x76 in its row is HLT. -/
def Obligations.MovToMemory : Prop :=
  (∀ mForms, lookup mForms 0x76 = some .hlt) ∧ ∀ src, HasEncoding (.movMR src) [SpecBytes.movToM src] ∧ OnlyWithMForms (.movMR src) ∧
    ∀ s, ∃ t, exec (.movMR src) s = .next t ∧ (∀ b, t.peek b = s.storedAt (s.pair .hl) (s.reg src) b) ∧
      KeepsRegsBut [] s t ∧ KeepsPointers s t ∧ KeepsStatus s t ∧ t.draws = s.draws ∧
      t.hookLog = s.hookLog ++ s.writeEvents (s.pair .hl) (s.reg src)

/-- PUSH rp (R158): SP goes down by 2; the low half goes to the new SP, the high half to the address above it;
there is no PUSH of the flags. The order in which hooks see the two bytes is the spec's decision D13 (log 15). -/
def Obligations.PushPair : Prop :=
  NoEntry [0xF5] ∧ ∀ p, HasEncoding (.push p) [SpecBytes.push p] ∧ AlwaysExists (.push p) ∧
    ∀ s, ∃ t, exec (.push p) s = .next t ∧ t.sp = s.sp - 2 ∧
      (∀ b, t.peek b = if b = s.sp - 2 ∧ s.hooked (s.sp - 2) = false then s.reg (pairLo p)
        else if b = s.sp - 1 ∧ s.hooked (s.sp - 1) = false then s.reg (pairHi p) else s.peek b) ∧
      KeepsRegsBut [] s t ∧ t.pc = s.pc ∧ KeepsStatus s t ∧ t.draws = s.draws ∧
      t.hookLog = s.hookLog ++ s.writeEvents (s.sp - 2) (s.reg (pairLo p)) ++
        s.writeEvents (s.sp - 1) (s.reg (pairHi p))

/-- POP rp (R159): the low half comes from SP, the high half from the address above it; SP goes up by 2; there is
no POP of the flags. The order in which hooks see the two bytes is the spec's decision D13 (log 15). -/
def Obligations.PopPair : Prop :=
  NoEntry [0xF1] ∧ ∀ p, HasEncoding (.pop p) [SpecBytes.pop p] ∧ AlwaysExists (.pop p) ∧
    ∀ s, ∃ t, exec (.pop p) s = .next t ∧ t.sp = s.sp + 2 ∧ t.reg (pairLo p) = s.valueAt s.draws s.sp ∧
      t.reg (pairHi p) = s.valueAt (s.draws + s.drawsAt s.sp) (s.sp + 1) ∧
      KeepsRegsBut [pairHi p, pairLo p] s t ∧ t.pc = s.pc ∧ KeepsMem s t ∧ KeepsStatus s t ∧
      t.draws = s.draws + s.drawsAt s.sp + s.drawsAt (s.sp + 1) ∧
      t.hookLog = s.hookLog ++ s.readEvents s.draws s.sp ++ s.readEvents (s.draws + s.drawsAt s.sp) (s.sp + 1)

/-- PUSH and POP are inverse (R160): any pairs pushed and then popped in reverse order leave SP and all registers as they were,
for every starting SP, as long as the pushed words do not overlap and no stack address is hooked; and a push of one pair
followed by a pop of another copies it. -/
def Obligations.PushesThenPopsRestore : Prop :=
  (∀ (ps : List Pair) s, 2 * ps.length ≤ 65536 →
    (∀ j, 1 ≤ j → j ≤ 2 * ps.length → s.hooked (s.sp - BitVec.ofNat 16 j) = false) →
    ∃ t, execAll (ps.map Instr.push ++ ps.reverse.map Instr.pop) s = .next t ∧ t.sp = s.sp ∧ t.regs = s.regs) ∧
  (∀ p q s, s.hooked (s.sp - 1) = false → s.hooked (s.sp - 2) = false →
    ∃ t, execAll [.push p, .pop q] s = .next t ∧ t.sp = s.sp ∧ t.pair q = s.pair p ∧
      KeepsRegsBut [pairHi q, pairLo q] s t)

/-! ## Arithmetic -/

/-- INR r (R170): CY is kept, and AC is also the low four bits of the result being zero. -/
def Obligations.IncrementRegister : Prop :=
  ∀ r, HasEncoding (.inrR r) [SpecBytes.inr r] ∧ AlwaysExists (.inrR r) ∧
    ∀ s, ∃ t, exec (.inrR r) s = .next t ∧ (t.reg r).toNat = ((s.reg r).toNat + 1) % 256 ∧
      FlagsFromResult s.flags t.flags (t.reg r) (decide ((s.reg r).toNat % 16 = 15)) ∧
      t.flags.ac = decide ((t.reg r).toNat % 16 = 0) ∧ KeepsRegsBut [r] s t ∧ KeepsPointers s t ∧ KeepsMem s t ∧
      t.run = s.run ∧ t.params = s.params ∧ KeepsHooks s t

/-- INR M (R171): where HL is hooked the old value is the draw and the result goes to the hook. -/
def Obligations.IncrementMemory : Prop :=
  HasEncoding .inrM [0x34] ∧ OnlyWithMForms .inrM ∧
    ∀ s, ∃ t v, exec .inrM s = .next t ∧ v.toNat = ((s.valueAt s.draws (s.pair .hl)).toNat + 1) % 256 ∧
      (∀ b, t.peek b = s.storedAt (s.pair .hl) v b) ∧
      FlagsFromResult s.flags t.flags v (decide ((s.valueAt s.draws (s.pair .hl)).toNat % 16 = 15)) ∧
      KeepsRegsBut [] s t ∧ KeepsPointers s t ∧ t.run = s.run ∧ t.params = s.params ∧
      t.draws = s.draws + s.drawsAt (s.pair .hl) ∧
      t.hookLog = s.hookLog ++ s.readEvents s.draws (s.pair .hl) ++ s.writeEvents (s.pair .hl) v

/-- DCR r (R172): AC is the parameter DCR_AC of the old value; with the default that is the old low four bits not being zero,
with the borrow convention its complement. -/
def Obligations.DecrementRegister : Prop :=
  ∀ r, HasEncoding (.dcrR r) [SpecBytes.dcr r] ∧ AlwaysExists (.dcrR r) ∧
    ∀ s, ∃ t, exec (.dcrR r) s = .next t ∧ (t.reg r).toNat = ((s.reg r).toNat + 255) % 256 ∧
      FlagsFromResult s.flags t.flags (t.reg r) (s.params.dcrAc.getLsbD (s.reg r).toNat) ∧
      (s.params.dcrAc = Config.dcrAcCarry → t.flags.ac = decide ((s.reg r).toNat % 16 ≠ 0) ∧
        t.flags.ac = decide ((t.reg r).toNat % 16 ≠ 15)) ∧
      (s.params.dcrAc = Config.dcrAcBorrow → t.flags.ac = decide ((s.reg r).toNat % 16 = 0)) ∧
      KeepsRegsBut [r] s t ∧ KeepsPointers s t ∧ KeepsMem s t ∧ t.run = s.run ∧ t.params = s.params ∧ KeepsHooks s t

/-- DCR M (R173). -/
def Obligations.DecrementMemory : Prop :=
  HasEncoding .dcrM [0x35] ∧ OnlyWithMForms .dcrM ∧
    ∀ s, ∃ t v, exec .dcrM s = .next t ∧ v.toNat = ((s.valueAt s.draws (s.pair .hl)).toNat + 255) % 256 ∧
      (∀ b, t.peek b = s.storedAt (s.pair .hl) v b) ∧
      FlagsFromResult s.flags t.flags v (s.params.dcrAc.getLsbD (s.valueAt s.draws (s.pair .hl)).toNat) ∧
      KeepsRegsBut [] s t ∧ KeepsPointers s t ∧ t.run = s.run ∧ t.params = s.params ∧
      t.draws = s.draws + s.drawsAt (s.pair .hl) ∧
      t.hookLog = s.hookLog ++ s.readEvents s.draws (s.pair .hl) ++ s.writeEvents (s.pair .hl) v

/-- INX rp (R174): the pair goes up by 1 modulo 65536 and no flag changes; there is no form for SP and no pair decrement. -/
def Obligations.IncrementPair : Prop :=
  NoEntry [0x33, 0x0B, 0x1B, 0x2B, 0x3B] ∧ ∀ p, HasEncoding (.inx p) [SpecBytes.inx p] ∧ AlwaysExists (.inx p) ∧
    ∀ s, ∃ t, exec (.inx p) s = .next t ∧ (t.pair p).toNat = ((s.pair p).toNat + 1) % 65536 ∧
      KeepsRegsBut [pairHi p, pairLo p] s t ∧ KeepsPointers s t ∧ KeepsMem s t ∧ KeepsStatus s t ∧ KeepsHooks s t

/-- Only INR and DCR write flags, and of theirs not CY; every other instruction keeps all five (R30, R161). -/
def Obligations.OnlyIncDecWriteFlags : Prop :=
  ∀ i s t, exec i s = .next t →
    (i.form.mnemonic ≠ .inr → i.form.mnemonic ≠ .dcr → t.flags = s.flags) ∧
    (i.form.mnemonic = .inr ∨ i.form.mnemonic = .dcr → ∃ v ac, FlagsFromResult s.flags t.flags v ac)

/-- No instruction reads a flag (R32): two states that differ in their flags alone step to states that differ in their flags
alone, or both fault alike. -/
def Obligations.FlagsInfluenceNothing : Prop :=
  ∀ (s : State) f, (∀ t, step s = .next t → ∃ g, step (s.setFlags f) = .next (t.setFlags g)) ∧
    (∀ e, step s = .fault e → step (s.setFlags f) = .fault e)

/-! ## Control transfer -/

/-- JMP a16 (R180). -/
def Obligations.JumpSetsPc : Prop :=
  ∀ a16, HasEncoding (.jmp a16) [0xC3, loByte a16, hiByte a16] ∧ AlwaysExists (.jmp a16) ∧
    ∀ s, ∃ t, exec (.jmp a16) s = .next t ∧ t.pc = a16 ∧ t.sp = s.sp ∧ KeepsRegsBut [] s t ∧ KeepsMem s t ∧
      KeepsStatus s t ∧ KeepsHooks s t

/-- CALL a16 (R181): the PC it pushes is the one the step has advanced past the instruction, so a step at PC0 pushes PC0 + 3. The
order in which hooks see the two bytes is the spec's decision D13 (log 15). -/
def Obligations.CallPushesReturnAddress : Prop :=
  ∀ a16, HasEncoding (.call a16) [0xCD, loByte a16, hiByte a16] ∧ AlwaysExists (.call a16) ∧
    (∀ s, ∃ t, exec (.call a16) s = .next t ∧ t.pc = a16 ∧ t.sp = s.sp - 2 ∧
      (∀ b, t.peek b = if b = s.sp - 2 ∧ s.hooked (s.sp - 2) = false then loByte s.pc
        else if b = s.sp - 1 ∧ s.hooked (s.sp - 1) = false then hiByte s.pc else s.peek b) ∧
      KeepsRegsBut [] s t ∧ KeepsStatus s t ∧ t.draws = s.draws ∧
      t.hookLog = s.hookLog ++ s.writeEvents (s.sp - 2) (loByte s.pc) ++ s.writeEvents (s.sp - 1) (hiByte s.pc)) ∧
    ∀ s u, s.run = .running → s.decodeAt s.pc = some (.call a16, u) →
      ∃ t, step s = .next t ∧ t.pc = a16 ∧
        (s.hooked (s.sp - 2) = false → t.peek (s.sp - 2) = loByte (s.pc + 3)) ∧
        (s.hooked (s.sp - 1) = false → t.peek (s.sp - 1) = hiByte (s.pc + 3))

/-- RET (R182): PC becomes the word at SP and SP goes up by 2. A RET after a CALL resumes at the instruction after the CALL with
SP as before it, when the subroutine left SP and the two stack bytes as it found them. The order in which hooks see the two bytes is the
spec's decision D13 (log 15). -/
def Obligations.ReturnPopsPc : Prop :=
  HasEncoding .ret [0xC9] ∧ AlwaysExists .ret ∧
    (∀ s, ∃ t, exec .ret s = .next t ∧
      t.pc = joinBytes (s.valueAt (s.draws + s.drawsAt s.sp) (s.sp + 1)) (s.valueAt s.draws s.sp) ∧
      t.sp = s.sp + 2 ∧ KeepsRegsBut [] s t ∧ KeepsMem s t ∧ KeepsStatus s t ∧
      t.draws = s.draws + s.drawsAt s.sp + s.drawsAt (s.sp + 1) ∧
      t.hookLog = s.hookLog ++ s.readEvents s.draws s.sp ++ s.readEvents (s.draws + s.drawsAt s.sp) (s.sp + 1)) ∧
    ∀ a16 s t u, s.hooked (s.sp - 1) = false → s.hooked (s.sp - 2) = false → exec (.call a16) s = .next t →
      u.sp = t.sp → u.params = t.params → u.peek (s.sp - 1) = t.peek (s.sp - 1) → u.peek (s.sp - 2) = t.peek (s.sp - 2) →
      ∃ v, exec .ret u = .next v ∧ v.pc = s.pc ∧ v.sp = s.sp

/-- HLT (R183): the run status becomes HALTED and nothing else changes; a step over an HLT leaves PC one past it, which is
the spec's decision D17 (log 15), and no step follows, which is the refusal of log 6. -/
def Obligations.HaltStops : Prop :=
  HasEncoding .hlt [0x76] ∧ AlwaysExists .hlt ∧
    (∀ s, ∃ t, exec .hlt s = .next t ∧ t.run = .halted ∧ t.flags = s.flags ∧ t.params = s.params ∧ KeepsRegsBut [] s t ∧
      KeepsPointers s t ∧ KeepsMem s t ∧ KeepsHooks s t) ∧
    ∀ s u, s.run = .running → s.decodeAt s.pc = some (.hlt, u) →
      ∃ t, step s = .next t ∧ t.run = .halted ∧ t.pc = s.pc + 1 ∧ step t = .refused .halted

/-- SP changes only by PUSH, CALL (down by 2), POP and RET (up by 2), modulo 65536 (R26). -/
def Obligations.StackPointerMoves : Prop :=
  ∀ i s t, exec i s = .next t → t.sp = match i.form.mnemonic with
    | .push | .call => s.sp - 2
    | .pop | .ret => s.sp + 2
    | .mov | .mvi | .lxi | .lda | .sta | .inr | .dcr | .inx | .jmp | .hlt => s.sp

/-! ## Hooks -/

/-- An access to a hooked address never reads or writes the memory cell (R63): two states that agree but for cells under hooks
step alike to states that agree so, and a step leaves every cell under a hook as it was. -/
def Obligations.HookedCellsAreNeverUsed : Prop :=
  (∀ s u t, AgreeOffHooks s u → step s = .next t → ∃ v, step u = .next v ∧ AgreeOffHooks t v) ∧
  (∀ s u f, AgreeOffHooks s u → step s = .fault f → step u = .fault f) ∧
  (∀ s t a, step s = .next t → s.hooked a = true → t.peek a = s.peek a)

/-! ## The creation of a run and its end -/

/-- What the spec gives of the state after reset (R40, R230): PC 0, RUNNING, and the recommended parameters of R6: no hook,
M_FORMS true, DCR_AC of `old` the low four bits of `old` not being zero. That reset takes the recommended parameters is the
model's choice (log 1, 5); PC 0 and RUNNING are the spec's decision D10 (log 15). -/
def Obligations.ResetStartsAtZeroRunning : Prop :=
  State.reset.pc = 0 ∧ State.reset.run = .running ∧ State.reset.params.hooks = [] ∧ State.reset.params.mForms = true ∧
    ∀ old, State.reset.params.decAuxCarry old = decide (old.toNat % 16 ≠ 0)

/-- A launch with a legal hook list and an image that fits and meets no hook is accepted and creates the state of R230 and R232:
PC 0, RUNNING, the registers, SP and flags given, the image from address 0 on and MEM_INIT everywhere else. The model's own choice
are the parameters and the empty record in the state (log 1), the draw counter at 0 (log 4) and the form of MEM_INIT (log 17); PC 0
and RUNNING are the spec's decision D10 (log 15). -/
def Obligations.LaunchCreatesState : Prop :=
  ∀ k : Launch, hooksOk k.hooks → k.image.length ≤ 65536 → (∀ h ∈ k.hooks, k.image.length ≤ h.lo.toNat) →
    ∃ s, k.state = .ok s ∧ s.pc = 0 ∧ s.run = .running ∧ s.regs = k.regs ∧ s.sp = k.sp ∧ s.flags = k.flags ∧
      s.params = ⟨k.hooks, k.mForms, k.dcrAc⟩ ∧ s.draws = 0 ∧ s.hookLog = [] ∧
      ∀ a : Word, s.peek a = (k.image[a.toNat]?).getD (Memory.get (Memory.ofCells k.memInit) a.toNat)

/-- A launch is refused exactly when the hook list is not legal, the image is longer than 65536 bytes, or an image byte falls
under a hook (R63, R68, R230; D12, D15). -/
def Obligations.LaunchRefusedExactly : Prop :=
  ∀ k : Launch, (∃ s, k.state = .ok s) ↔
    hooksOk k.hooks ∧ k.image.length ≤ 65536 ∧ ∀ h ∈ k.hooks, k.image.length ≤ h.lo.toNat

/-- Every canonical memory is a MEM_INIT, so the fixed value of unlisted cells excludes no memory content (D12, log 3). -/
def Obligations.EveryMemoryCanBeInitial : Prop := ∀ m : Memory, m.wf → Memory.ofCells m = m

/-- How a run ends (R139): halted exactly when the exposed state is HALTED; faulted with InvalidOpcode at the exposed PC of a
machine still RUNNING, whose next step is that fault (D16, log 15); otherwise stopped by the host, RUNNING. -/
def Obligations.RunEndsInThreeWays : Prop :=
  ∀ n s, match runFor n s with
    | (.halted, t) => t.run = .halted
    | (.faulted f, t) => t.run = .running ∧ f = .invalidOpcode t.pc ∧ step t = .fault f
    | (.stopped, t) => t.run = .running

/-- The host's stop changes no state (R140): a run stopped after `n` steps and taken up again is the run not stopped there. -/
def Obligations.StopChangesNothing : Prop :=
  ∀ n m s t, runFor n s = (.stopped, t) → runFor (n + m) s = runFor m t

/-! ## The encoder -/

/-- The worked assembly of R118: a forward reference, a label on its own line, a label before an instruction, comments and both
letter cases. The bytes rest on D2 (log 7), the spelling m on D21 and the literal on D22 (log 15). -/
def Obligations.WorkedAssembly : Prop :=
  assemble true ("         JMP start        ; forward reference\n data:\n         HLT\n".toList ++
    " start:  LXI hl,data      ; label as a 16-bit immediate\n         MVI m,0x2Ah\n         hlt\n".toList) =
    .ok [0xC3, 0x04, 0x00, 0x76, 0x21, 0x03, 0x00, 0x36, 0x2A, 0x76]

/-- A source that assembles gives the bytes of a list of instructions that exist, at most 65536 of them in all (R112, R113). -/
def Obligations.ImageIsEncodedInstructions : Prop :=
  ∀ mForms src img, assemble mForms src = .ok img →
    ∃ is, assembleInstrs mForms src = .ok is ∧ img = is.flatMap encode ∧
      (∀ i ∈ is, Instr.wellFormed mForms i = true) ∧ img.length ≤ 65536

/-- A label has the address of the next byte emitted after it (R110): when pass 1 succeeds, a label declared on a line has in
the table the number of bytes pass 2 emits for the lines before that line. -/
def Obligations.LabelIsImageOffset : Prop :=
  ∀ mForms before n line after labels name rest is, pass1 mForms (before ++ (n, line) :: after) 0 [] = .ok labels →
    splitLabel (codeOf line) = .ok (some name, rest) → pass2 mForms labels before = .ok is →
    labels.find name = some (imageOf is).length

/-- Pass 2 reports nothing but undefined labels and literals out of range when pass 1 has found no error (R115,
which is the spec's decision D26, log 15). -/
def Obligations.PassTwoReportsLateErrorsOnly : Prop :=
  ∀ mForms lines labels table e, pass1 mForms lines 0 [] = .ok labels → pass2 mForms table lines = .error e →
    e.kind = .undefinedLabel ∨ e.kind = .literalRange

/-- An AssemblyError names a line of the source (R114, R217). -/
def Obligations.ErrorNamesSourceLine : Prop :=
  ∀ mForms src e, assemble mForms src = .error e → 1 ≤ e.line ∧ e.line ≤ (sourceLines src).length

/-- The source line of an instruction that exists assembles to its bytes, and they decode to it (R112, R117). The spelling
m and the operand order of MOV are the spec's decision D21, the literals D22 (log 15). -/
def Obligations.AssembleThenDecode : Prop :=
  ∀ mForms i, Instr.wellFormed mForms i = true →
    assemble mForms (spell i) = .ok (encode i) ∧ decode mForms (encode i) = .ok (i, [])
end

