-- ==== Sys2Proof/Laws/State.lean ====
section
/-! SUPPORT. One lemma for each field of the state under each update, and one for each accessor under each update, so that no
later proof unfolds a record update. -/

namespace Sys2Proof.Machine

/-! ## Fields -/

@[simp] theorem State.setReg_regs (s : State) (r : Reg) (v : Byte) : (s.setReg r v).regs = s.regs.set r v := rfl
@[simp] theorem State.setReg_sp (s : State) (r : Reg) (v : Byte) : (s.setReg r v).sp = s.sp := rfl
@[simp] theorem State.setReg_pc (s : State) (r : Reg) (v : Byte) : (s.setReg r v).pc = s.pc := rfl
@[simp] theorem State.setReg_flags (s : State) (r : Reg) (v : Byte) : (s.setReg r v).flags = s.flags := rfl
@[simp] theorem State.setReg_run (s : State) (r : Reg) (v : Byte) : (s.setReg r v).run = s.run := rfl
@[simp] theorem State.setReg_mem (s : State) (r : Reg) (v : Byte) : (s.setReg r v).mem = s.mem := rfl
@[simp] theorem State.setReg_params (s : State) (r : Reg) (v : Byte) : (s.setReg r v).params = s.params := rfl
@[simp] theorem State.setReg_draws (s : State) (r : Reg) (v : Byte) : (s.setReg r v).draws = s.draws := rfl
@[simp] theorem State.setReg_hookLog (s : State) (r : Reg) (v : Byte) : (s.setReg r v).hookLog = s.hookLog := rfl

@[simp] theorem State.setPair_regs (s : State) (p : Pair) (v : Word) : (s.setPair p v).regs = s.regs.setPair p v := rfl
@[simp] theorem State.setPair_sp (s : State) (p : Pair) (v : Word) : (s.setPair p v).sp = s.sp := rfl
@[simp] theorem State.setPair_pc (s : State) (p : Pair) (v : Word) : (s.setPair p v).pc = s.pc := rfl
@[simp] theorem State.setPair_flags (s : State) (p : Pair) (v : Word) : (s.setPair p v).flags = s.flags := rfl
@[simp] theorem State.setPair_run (s : State) (p : Pair) (v : Word) : (s.setPair p v).run = s.run := rfl
@[simp] theorem State.setPair_mem (s : State) (p : Pair) (v : Word) : (s.setPair p v).mem = s.mem := rfl
@[simp] theorem State.setPair_params (s : State) (p : Pair) (v : Word) : (s.setPair p v).params = s.params := rfl
@[simp] theorem State.setPair_draws (s : State) (p : Pair) (v : Word) : (s.setPair p v).draws = s.draws := rfl
@[simp] theorem State.setPair_hookLog (s : State) (p : Pair) (v : Word) : (s.setPair p v).hookLog = s.hookLog := rfl

@[simp] theorem State.setSp_regs (s : State) (v : Word) : (s.setSp v).regs = s.regs := rfl
@[simp] theorem State.setSp_sp (s : State) (v : Word) : (s.setSp v).sp = v := rfl
@[simp] theorem State.setSp_pc (s : State) (v : Word) : (s.setSp v).pc = s.pc := rfl
@[simp] theorem State.setSp_flags (s : State) (v : Word) : (s.setSp v).flags = s.flags := rfl
@[simp] theorem State.setSp_run (s : State) (v : Word) : (s.setSp v).run = s.run := rfl
@[simp] theorem State.setSp_mem (s : State) (v : Word) : (s.setSp v).mem = s.mem := rfl
@[simp] theorem State.setSp_params (s : State) (v : Word) : (s.setSp v).params = s.params := rfl
@[simp] theorem State.setSp_draws (s : State) (v : Word) : (s.setSp v).draws = s.draws := rfl
@[simp] theorem State.setSp_hookLog (s : State) (v : Word) : (s.setSp v).hookLog = s.hookLog := rfl

@[simp] theorem State.setPc_regs (s : State) (v : Word) : (s.setPc v).regs = s.regs := rfl
@[simp] theorem State.setPc_sp (s : State) (v : Word) : (s.setPc v).sp = s.sp := rfl
@[simp] theorem State.setPc_pc (s : State) (v : Word) : (s.setPc v).pc = v := rfl
@[simp] theorem State.setPc_flags (s : State) (v : Word) : (s.setPc v).flags = s.flags := rfl
@[simp] theorem State.setPc_run (s : State) (v : Word) : (s.setPc v).run = s.run := rfl
@[simp] theorem State.setPc_mem (s : State) (v : Word) : (s.setPc v).mem = s.mem := rfl
@[simp] theorem State.setPc_params (s : State) (v : Word) : (s.setPc v).params = s.params := rfl
@[simp] theorem State.setPc_draws (s : State) (v : Word) : (s.setPc v).draws = s.draws := rfl
@[simp] theorem State.setPc_hookLog (s : State) (v : Word) : (s.setPc v).hookLog = s.hookLog := rfl

@[simp] theorem State.setFlags_regs (s : State) (f : Flags) : (s.setFlags f).regs = s.regs := rfl
@[simp] theorem State.setFlags_sp (s : State) (f : Flags) : (s.setFlags f).sp = s.sp := rfl
@[simp] theorem State.setFlags_pc (s : State) (f : Flags) : (s.setFlags f).pc = s.pc := rfl
@[simp] theorem State.setFlags_flags (s : State) (f : Flags) : (s.setFlags f).flags = f := rfl
@[simp] theorem State.setFlags_run (s : State) (f : Flags) : (s.setFlags f).run = s.run := rfl
@[simp] theorem State.setFlags_mem (s : State) (f : Flags) : (s.setFlags f).mem = s.mem := rfl
@[simp] theorem State.setFlags_params (s : State) (f : Flags) : (s.setFlags f).params = s.params := rfl
@[simp] theorem State.setFlags_draws (s : State) (f : Flags) : (s.setFlags f).draws = s.draws := rfl
@[simp] theorem State.setFlags_hookLog (s : State) (f : Flags) : (s.setFlags f).hookLog = s.hookLog := rfl

@[simp] theorem State.setRun_regs (s : State) (r : RunStatus) : (s.setRun r).regs = s.regs := rfl
@[simp] theorem State.setRun_sp (s : State) (r : RunStatus) : (s.setRun r).sp = s.sp := rfl
@[simp] theorem State.setRun_pc (s : State) (r : RunStatus) : (s.setRun r).pc = s.pc := rfl
@[simp] theorem State.setRun_flags (s : State) (r : RunStatus) : (s.setRun r).flags = s.flags := rfl
@[simp] theorem State.setRun_run (s : State) (r : RunStatus) : (s.setRun r).run = r := rfl
@[simp] theorem State.setRun_mem (s : State) (r : RunStatus) : (s.setRun r).mem = s.mem := rfl
@[simp] theorem State.setRun_params (s : State) (r : RunStatus) : (s.setRun r).params = s.params := rfl
@[simp] theorem State.setRun_draws (s : State) (r : RunStatus) : (s.setRun r).draws = s.draws := rfl
@[simp] theorem State.setRun_hookLog (s : State) (r : RunStatus) : (s.setRun r).hookLog = s.hookLog := rfl

@[simp] theorem State.poke_regs (s : State) (a : Word) (v : Byte) : (s.poke a v).regs = s.regs := rfl
@[simp] theorem State.poke_sp (s : State) (a : Word) (v : Byte) : (s.poke a v).sp = s.sp := rfl
@[simp] theorem State.poke_pc (s : State) (a : Word) (v : Byte) : (s.poke a v).pc = s.pc := rfl
@[simp] theorem State.poke_flags (s : State) (a : Word) (v : Byte) : (s.poke a v).flags = s.flags := rfl
@[simp] theorem State.poke_run (s : State) (a : Word) (v : Byte) : (s.poke a v).run = s.run := rfl
@[simp] theorem State.poke_mem (s : State) (a : Word) (v : Byte) : (s.poke a v).mem = Memory.set s.mem a.toNat v := rfl
@[simp] theorem State.poke_params (s : State) (a : Word) (v : Byte) : (s.poke a v).params = s.params := rfl
@[simp] theorem State.poke_draws (s : State) (a : Word) (v : Byte) : (s.poke a v).draws = s.draws := rfl
@[simp] theorem State.poke_hookLog (s : State) (a : Word) (v : Byte) : (s.poke a v).hookLog = s.hookLog := rfl

@[simp] theorem State.noteRead_regs (s : State) (a : Word) (v : Byte) : (s.noteRead a v).regs = s.regs := rfl
@[simp] theorem State.noteRead_sp (s : State) (a : Word) (v : Byte) : (s.noteRead a v).sp = s.sp := rfl
@[simp] theorem State.noteRead_pc (s : State) (a : Word) (v : Byte) : (s.noteRead a v).pc = s.pc := rfl
@[simp] theorem State.noteRead_flags (s : State) (a : Word) (v : Byte) : (s.noteRead a v).flags = s.flags := rfl
@[simp] theorem State.noteRead_run (s : State) (a : Word) (v : Byte) : (s.noteRead a v).run = s.run := rfl
@[simp] theorem State.noteRead_mem (s : State) (a : Word) (v : Byte) : (s.noteRead a v).mem = s.mem := rfl
@[simp] theorem State.noteRead_params (s : State) (a : Word) (v : Byte) : (s.noteRead a v).params = s.params := rfl
@[simp] theorem State.noteRead_draws (s : State) (a : Word) (v : Byte) : (s.noteRead a v).draws = s.draws + 1 := rfl
@[simp] theorem State.noteRead_hookLog (s : State) (a : Word) (v : Byte) : (s.noteRead a v).hookLog = s.hookLog ++ [.read a v] := rfl

@[simp] theorem State.noteWrite_regs (s : State) (a : Word) (v : Byte) : (s.noteWrite a v).regs = s.regs := rfl
@[simp] theorem State.noteWrite_sp (s : State) (a : Word) (v : Byte) : (s.noteWrite a v).sp = s.sp := rfl
@[simp] theorem State.noteWrite_pc (s : State) (a : Word) (v : Byte) : (s.noteWrite a v).pc = s.pc := rfl
@[simp] theorem State.noteWrite_flags (s : State) (a : Word) (v : Byte) : (s.noteWrite a v).flags = s.flags := rfl
@[simp] theorem State.noteWrite_run (s : State) (a : Word) (v : Byte) : (s.noteWrite a v).run = s.run := rfl
@[simp] theorem State.noteWrite_mem (s : State) (a : Word) (v : Byte) : (s.noteWrite a v).mem = s.mem := rfl
@[simp] theorem State.noteWrite_params (s : State) (a : Word) (v : Byte) : (s.noteWrite a v).params = s.params := rfl
@[simp] theorem State.noteWrite_draws (s : State) (a : Word) (v : Byte) : (s.noteWrite a v).draws = s.draws := rfl
@[simp] theorem State.noteWrite_hookLog (s : State) (a : Word) (v : Byte) : (s.noteWrite a v).hookLog = s.hookLog ++ [.write a v] := rfl

@[simp] theorem State.advancePc_regs (s : State) (n : Nat) : (s.advancePc n).regs = s.regs := rfl
@[simp] theorem State.advancePc_sp (s : State) (n : Nat) : (s.advancePc n).sp = s.sp := rfl
@[simp] theorem State.advancePc_pc (s : State) (n : Nat) : (s.advancePc n).pc = s.pc + BitVec.ofNat 16 n := rfl
@[simp] theorem State.advancePc_flags (s : State) (n : Nat) : (s.advancePc n).flags = s.flags := rfl
@[simp] theorem State.advancePc_run (s : State) (n : Nat) : (s.advancePc n).run = s.run := rfl
@[simp] theorem State.advancePc_mem (s : State) (n : Nat) : (s.advancePc n).mem = s.mem := rfl
@[simp] theorem State.advancePc_params (s : State) (n : Nat) : (s.advancePc n).params = s.params := rfl
@[simp] theorem State.advancePc_draws (s : State) (n : Nat) : (s.advancePc n).draws = s.draws := rfl
@[simp] theorem State.advancePc_hookLog (s : State) (n : Nat) : (s.advancePc n).hookLog = s.hookLog := rfl

/-! ## Accessors -/

@[simp] theorem State.setReg_peek (s : State) (r : Reg) (v : Byte) (b : Word) : (s.setReg r v).peek b = s.peek b := rfl
@[simp] theorem State.setReg_hooked (s : State) (r : Reg) (v : Byte) (b : Word) : (s.setReg r v).hooked b = s.hooked b := rfl

@[simp] theorem State.setPair_peek (s : State) (p : Pair) (v : Word) (b : Word) : (s.setPair p v).peek b = s.peek b := rfl
@[simp] theorem State.setPair_hooked (s : State) (p : Pair) (v : Word) (b : Word) : (s.setPair p v).hooked b = s.hooked b := rfl

@[simp] theorem State.setSp_reg (s : State) (v : Word) (q : Reg) : (s.setSp v).reg q = s.reg q := rfl
@[simp] theorem State.setSp_pair (s : State) (v : Word) (q : Pair) : (s.setSp v).pair q = s.pair q := rfl
@[simp] theorem State.setSp_addrM (s : State) (v : Word) : (s.setSp v).addrM = s.addrM := rfl
@[simp] theorem State.setSp_peek (s : State) (v : Word) (b : Word) : (s.setSp v).peek b = s.peek b := rfl
@[simp] theorem State.setSp_hooked (s : State) (v : Word) (b : Word) : (s.setSp v).hooked b = s.hooked b := rfl

@[simp] theorem State.setPc_reg (s : State) (v : Word) (q : Reg) : (s.setPc v).reg q = s.reg q := rfl
@[simp] theorem State.setPc_pair (s : State) (v : Word) (q : Pair) : (s.setPc v).pair q = s.pair q := rfl
@[simp] theorem State.setPc_addrM (s : State) (v : Word) : (s.setPc v).addrM = s.addrM := rfl
@[simp] theorem State.setPc_peek (s : State) (v : Word) (b : Word) : (s.setPc v).peek b = s.peek b := rfl
@[simp] theorem State.setPc_hooked (s : State) (v : Word) (b : Word) : (s.setPc v).hooked b = s.hooked b := rfl

@[simp] theorem State.setFlags_reg (s : State) (f : Flags) (q : Reg) : (s.setFlags f).reg q = s.reg q := rfl
@[simp] theorem State.setFlags_pair (s : State) (f : Flags) (q : Pair) : (s.setFlags f).pair q = s.pair q := rfl
@[simp] theorem State.setFlags_addrM (s : State) (f : Flags) : (s.setFlags f).addrM = s.addrM := rfl
@[simp] theorem State.setFlags_peek (s : State) (f : Flags) (b : Word) : (s.setFlags f).peek b = s.peek b := rfl
@[simp] theorem State.setFlags_hooked (s : State) (f : Flags) (b : Word) : (s.setFlags f).hooked b = s.hooked b := rfl

@[simp] theorem State.setRun_reg (s : State) (r : RunStatus) (q : Reg) : (s.setRun r).reg q = s.reg q := rfl
@[simp] theorem State.setRun_pair (s : State) (r : RunStatus) (q : Pair) : (s.setRun r).pair q = s.pair q := rfl
@[simp] theorem State.setRun_addrM (s : State) (r : RunStatus) : (s.setRun r).addrM = s.addrM := rfl
@[simp] theorem State.setRun_peek (s : State) (r : RunStatus) (b : Word) : (s.setRun r).peek b = s.peek b := rfl
@[simp] theorem State.setRun_hooked (s : State) (r : RunStatus) (b : Word) : (s.setRun r).hooked b = s.hooked b := rfl

@[simp] theorem State.poke_reg (s : State) (a : Word) (v : Byte) (q : Reg) : (s.poke a v).reg q = s.reg q := rfl
@[simp] theorem State.poke_pair (s : State) (a : Word) (v : Byte) (q : Pair) : (s.poke a v).pair q = s.pair q := rfl
@[simp] theorem State.poke_addrM (s : State) (a : Word) (v : Byte) : (s.poke a v).addrM = s.addrM := rfl
@[simp] theorem State.poke_hooked (s : State) (a : Word) (v : Byte) (b : Word) : (s.poke a v).hooked b = s.hooked b := rfl

@[simp] theorem State.noteRead_reg (s : State) (a : Word) (v : Byte) (q : Reg) : (s.noteRead a v).reg q = s.reg q := rfl
@[simp] theorem State.noteRead_pair (s : State) (a : Word) (v : Byte) (q : Pair) : (s.noteRead a v).pair q = s.pair q := rfl
@[simp] theorem State.noteRead_addrM (s : State) (a : Word) (v : Byte) : (s.noteRead a v).addrM = s.addrM := rfl
@[simp] theorem State.noteRead_peek (s : State) (a : Word) (v : Byte) (b : Word) : (s.noteRead a v).peek b = s.peek b := rfl
@[simp] theorem State.noteRead_hooked (s : State) (a : Word) (v : Byte) (b : Word) : (s.noteRead a v).hooked b = s.hooked b := rfl

@[simp] theorem State.noteWrite_reg (s : State) (a : Word) (v : Byte) (q : Reg) : (s.noteWrite a v).reg q = s.reg q := rfl
@[simp] theorem State.noteWrite_pair (s : State) (a : Word) (v : Byte) (q : Pair) : (s.noteWrite a v).pair q = s.pair q := rfl
@[simp] theorem State.noteWrite_addrM (s : State) (a : Word) (v : Byte) : (s.noteWrite a v).addrM = s.addrM := rfl
@[simp] theorem State.noteWrite_peek (s : State) (a : Word) (v : Byte) (b : Word) : (s.noteWrite a v).peek b = s.peek b := rfl
@[simp] theorem State.noteWrite_hooked (s : State) (a : Word) (v : Byte) (b : Word) : (s.noteWrite a v).hooked b = s.hooked b := rfl

@[simp] theorem State.advancePc_reg (s : State) (n : Nat) (q : Reg) : (s.advancePc n).reg q = s.reg q := rfl
@[simp] theorem State.advancePc_pair (s : State) (n : Nat) (q : Pair) : (s.advancePc n).pair q = s.pair q := rfl
@[simp] theorem State.advancePc_addrM (s : State) (n : Nat) : (s.advancePc n).addrM = s.addrM := rfl
@[simp] theorem State.advancePc_peek (s : State) (n : Nat) (b : Word) : (s.advancePc n).peek b = s.peek b := rfl
@[simp] theorem State.advancePc_hooked (s : State) (n : Nat) (b : Word) : (s.advancePc n).hooked b = s.hooked b := rfl

end Sys2Proof.Machine
end

