-- ==== Sys2Proof/Laws/Memory.lean ====
section
/-! SUPPORT. The memory: a read after a write, and that every memory operation keeps the canonical form. -/

namespace Sys2Proof.Machine

theorem Memory.get_clear (m : Memory) (a b : Nat) :
    Memory.get (Memory.clear m a) b = if b = a then Config.memDefault else Memory.get m b := by
  induction m with
  | nil => simp [Memory.clear, Memory.get]
  | cons x m ih =>
    by_cases hx : x.1 = a
    · have : Memory.clear (x :: m) a = Memory.clear m a := by simp [Memory.clear, hx]
      rw [this, ih]
      by_cases hb : b = a
      · simp [hb]
      · simp [Memory.get, hb, hx, Ne.symm hb]
    · have : Memory.clear (x :: m) a = x :: Memory.clear m a := by simp [Memory.clear, hx]
      rw [this]
      simp only [Memory.get, ih]
      by_cases hb : x.1 = b
      · simp [hb, hb ▸ hx]
      · simp [hb]

theorem Memory.get_insertCell (c : Host.Cell) (m : Memory) (h : ∀ x ∈ m, x.1 ≠ c.1) (b : Nat) :
    Memory.get (Memory.insertCell c m) b = if b = c.1 then c.2 else Memory.get m b := by
  induction m with
  | nil => simp [Memory.insertCell, Memory.get, eq_comm]
  | cons x m ih =>
    have hx := h x (by simp)
    have ih := ih (fun y hy => h y (by simp [hy]))
    simp only [Memory.insertCell]
    split
    · simp [Memory.get, eq_comm]
    · simp only [Memory.get, ih]
      by_cases hb : x.1 = b
      · simp [hb, hb ▸ hx]
      · simp [hb]

theorem Memory.mem_clear {m : Memory} {a : Nat} {x : Host.Cell} : x ∈ Memory.clear m a ↔ x ∈ m ∧ x.1 ≠ a := by
  simp [Memory.clear]

/-- A read after a write: the value written at that address, the old value everywhere else. -/
theorem Memory.get_set (m : Memory) (a b : Nat) (v : Byte) :
    Memory.get (Memory.set m a v) b = if b = a then v else Memory.get m b := by
  unfold Memory.set
  split
  · rename_i h; rw [Memory.get_clear, h]
  · rw [Memory.get_insertCell _ _ (fun x hx => (Memory.mem_clear.1 hx).2)]
    by_cases hb : b = a <;> simp [hb, Memory.get_clear]

theorem Memory.mem_insertCell {c x : Host.Cell} {m : Memory} : x ∈ Memory.insertCell c m ↔ x = c ∨ x ∈ m := by
  induction m with
  | nil => simp [Memory.insertCell]
  | cons y m ih =>
    simp only [Memory.insertCell]
    split
    · simp
    · simp only [List.mem_cons, ih]; tauto

theorem Memory.pairwise_insertCell {c : Host.Cell} {m : Memory} (hm : m.Pairwise (fun x y => x.1 < y.1))
    (hc : ∀ x ∈ m, x.1 ≠ c.1) : (Memory.insertCell c m).Pairwise (fun x y => x.1 < y.1) := by
  induction m with
  | nil => simp [Memory.insertCell]
  | cons y m ih =>
    obtain ⟨hy, hm'⟩ := List.pairwise_cons.1 hm
    simp only [Memory.insertCell]
    split
    · rename_i hlt
      refine List.pairwise_cons.2 ⟨fun x hx => ?_, hm⟩
      rcases List.mem_cons.1 hx with rfl | hx
      · exact hlt
      · exact lt_trans hlt (hy x hx)
    · rename_i hlt
      refine List.pairwise_cons.2 ⟨fun x hx => ?_, ih hm' (fun x hx => hc x (by simp [hx]))⟩
      rcases Memory.mem_insertCell.1 hx with rfl | hx
      · have := hc y (by simp); omega
      · exact hy x hx

/-- A write keeps the canonical form. -/
theorem Memory.wf_set {m : Memory} (h : Memory.wf m) {a : Nat} (ha : a < Config.memSize) (v : Byte) :
    Memory.wf (Memory.set m a v) := by
  have hp : (Memory.clear m a).Pairwise (fun x y => x.1 < y.1) := h.1.filter _
  unfold Memory.set
  split
  · exact ⟨hp, fun x hx => h.2 x (Memory.mem_clear.1 hx).1⟩
  · rename_i hv
    refine ⟨Memory.pairwise_insertCell hp (fun x hx => (Memory.mem_clear.1 hx).2), fun x hx => ?_⟩
    rcases Memory.mem_insertCell.1 hx with rfl | hx
    · exact ⟨ha, hv⟩
    · exact h.2 x (Memory.mem_clear.1 hx).1

theorem Memory.reset_wf : Memory.wf State.reset.mem := by decide

theorem State.peek_poke (s : State) (a b : Word) (v : Byte) :
    (s.poke a v).peek b = if b = a then v else s.peek b := by
  simp [State.peek, Memory.get_set, BitVec.toNat_inj]

@[simp] theorem State.peek_poke_same (s : State) (a : Word) (v : Byte) : (s.poke a v).peek a = v := by
  simp [State.peek_poke]

theorem State.poke_wf {s : State} (h : Memory.wf s.mem) (a : Word) (v : Byte) : Memory.wf (s.poke a v).mem :=
  Memory.wf_set h a.isLt v

end Sys2Proof.Machine
end

