-- ==== Sys2Proof/Laws/Regs.lean ====
section
/-! SUPPORT. Reading a register or a pair after a write (R22, R23, R24). -/

namespace Sys2Proof.Machine

/-- A register after a register write: the value written, or the old one (R24). -/
theorem Regs.get_set (g : Regs) (r q : Reg) (v : Byte) : (g.set r v).get q = if q = r then v else g.get q := by
  cases r <;> cases q <;> rfl

@[simp] theorem Regs.get_set_same (g : Regs) (r : Reg) (v : Byte) : (g.set r v).get r = v := by
  simp [Regs.get_set]

theorem Regs.get_set_ne (g : Regs) {r q : Reg} (v : Byte) (h : q ≠ r) : (g.set r v).get q = g.get q := by
  simp [Regs.get_set, h]

@[simp] theorem Regs.set_get_self (g : Regs) (r : Reg) : g.set r (g.get r) = g := by cases r <;> rfl

theorem pairHi_ne_pairLo (p : Pair) : pairHi p ≠ pairLo p := by cases p <;> decide

/-- A register after a pair write: only the two halves change (R24). -/
theorem Regs.get_setPair (g : Regs) (p : Pair) (q : Reg) (v : Word) :
    (g.setPair p v).get q = if q = pairLo p then loByte v else if q = pairHi p then hiByte v else g.get q := by
  simp [Regs.setPair, Regs.get_set]

/-- A pair read after it was written gives the value written (R22). -/
@[simp] theorem Regs.getPair_setPair (g : Regs) (p : Pair) (v : Word) : (g.setPair p v).getPair p = v := by
  simp [Regs.getPair, Regs.get_setPair, pairHi_ne_pairLo]

/-- A pair write leaves the other pairs alone. -/
theorem Regs.getPair_setPair_ne (g : Regs) {p q : Pair} (v : Word) (h : q ≠ p) :
    (g.setPair p v).getPair q = g.getPair q := by
  cases p <;> cases q <;> first | exact absurd rfl h | rfl

@[simp] theorem Regs.setPair_getPair_self (g : Regs) (p : Pair) : g.setPair p (g.getPair p) = g := by
  cases p <;> simp [Regs.setPair, Regs.getPair, Regs.set, Regs.get, pairHi, pairLo]

theorem State.reg_setReg (s : State) (r q : Reg) (v : Byte) :
    (s.setReg r v).reg q = if q = r then v else s.reg q := Regs.get_set s.regs r q v

theorem State.reg_setPair (s : State) (p : Pair) (q : Reg) (v : Word) :
    (s.setPair p v).reg q = if q = pairLo p then loByte v else if q = pairHi p then hiByte v else s.reg q :=
  Regs.get_setPair s.regs p q v

@[simp] theorem State.pair_setPair (s : State) (p : Pair) (v : Word) : (s.setPair p v).pair p = v :=
  Regs.getPair_setPair s.regs p v

/-- States with equal register files read equal registers. -/
theorem State.reg_congr {s t : State} (h : t.regs = s.regs) (q : Reg) : t.reg q = s.reg q := by
  simp [State.reg, h]

/-- States with equal register files read equal pairs. -/
theorem State.pair_congr {s t : State} (h : t.regs = s.regs) (p : Pair) : t.pair p = s.pair p := by
  simp [State.pair, h]

/-- Register files that read alike are equal. -/
theorem Regs.ext_get {g k : Regs} (h : ∀ q, g.get q = k.get q) : g = k := by
  have ha := h .a; have hb := h .b; have hc := h .c; have hd := h .d; have he := h .e; have hh := h .h; have hl := h .l
  cases g; cases k
  simp_all [Regs.get]

end Sys2Proof.Machine
end

