-- ==== Sys2Proof/Laws/Access.lean ====
section
/-! SUPPORT. Everything the memory and stack operations can do, field by field: what a read gives, what a write leaves, and what
each adds to the record of hooked accesses. A proof cites these instead of unfolding an operation. -/

namespace Sys2Proof.Machine

/-! ## read_byte -/

theorem State.readByte_fst (s : State) (a : Word) : (s.readByte a).1 = s.valueAt s.draws a := by
  unfold State.readByte State.valueAt; split <;> rfl

theorem State.readByte_snd_draws (s : State) (a : Word) : (s.readByte a).2.draws = s.draws + s.drawsAt a := by
  unfold State.readByte State.drawsAt; split <;> rfl

theorem State.readByte_snd_hookLog (s : State) (a : Word) :
    (s.readByte a).2.hookLog = s.hookLog ++ s.readEvents s.draws a := by
  unfold State.readByte State.readEvents; split <;> simp

/-- A read of an address no hook covers gives the stored byte and changes nothing (R61). -/
theorem State.readByte_of_unhooked {s : State} {a : Word} (h : s.hooked a = false) : s.readByte a = (s.peek a, s) := by
  simp [State.readByte, h]

/-- A read of a hooked address gives the next draw and records it (R64). -/
theorem State.readByte_of_hooked {s : State} {a : Word} (h : s.hooked a = true) :
    s.readByte a = (Config.hookByte s.draws, s.noteRead a (Config.hookByte s.draws)) := by
  simp [State.readByte, h]

@[simp] theorem State.readByte_snd_regs (s : State) (a : Word) : (s.readByte a).2.regs = s.regs := by
  unfold State.readByte; split <;> rfl
@[simp] theorem State.readByte_snd_sp (s : State) (a : Word) : (s.readByte a).2.sp = s.sp := by
  unfold State.readByte; split <;> rfl
@[simp] theorem State.readByte_snd_pc (s : State) (a : Word) : (s.readByte a).2.pc = s.pc := by
  unfold State.readByte; split <;> rfl
@[simp] theorem State.readByte_snd_flags (s : State) (a : Word) : (s.readByte a).2.flags = s.flags := by
  unfold State.readByte; split <;> rfl
@[simp] theorem State.readByte_snd_run (s : State) (a : Word) : (s.readByte a).2.run = s.run := by
  unfold State.readByte; split <;> rfl
@[simp] theorem State.readByte_snd_mem (s : State) (a : Word) : (s.readByte a).2.mem = s.mem := by
  unfold State.readByte; split <;> rfl
@[simp] theorem State.readByte_snd_params (s : State) (a : Word) : (s.readByte a).2.params = s.params := by
  unfold State.readByte; split <;> rfl
@[simp] theorem State.readByte_snd_reg (s : State) (a : Word) (q : Reg) : (s.readByte a).2.reg q = s.reg q := by
  unfold State.readByte; split <;> rfl
@[simp] theorem State.readByte_snd_pair (s : State) (a : Word) (q : Pair) : (s.readByte a).2.pair q = s.pair q := by
  unfold State.readByte; split <;> rfl
@[simp] theorem State.readByte_snd_addrM (s : State) (a : Word) : (s.readByte a).2.addrM = s.addrM := by
  unfold State.readByte; split <;> rfl
@[simp] theorem State.readByte_snd_peek (s : State) (a : Word) (b : Word) : (s.readByte a).2.peek b = s.peek b := by
  unfold State.readByte; split <;> rfl
@[simp] theorem State.readByte_snd_hooked (s : State) (a : Word) (b : Word) : (s.readByte a).2.hooked b = s.hooked b := by
  unfold State.readByte; split <;> rfl

@[simp] theorem State.readByte_snd_valueAt (s : State) (a : Word) (n : Nat) (b : Word) :
    (s.readByte a).2.valueAt n b = s.valueAt n b := by
  simp [State.valueAt]

@[simp] theorem State.readByte_snd_drawsAt (s : State) (a b : Word) : (s.readByte a).2.drawsAt b = s.drawsAt b := by
  simp [State.drawsAt]

@[simp] theorem State.readByte_snd_readEvents (s : State) (a : Word) (n : Nat) (b : Word) :
    (s.readByte a).2.readEvents n b = s.readEvents n b := by
  simp [State.readEvents]

/-! ## write_byte -/

theorem State.writeByte_hookLog (s : State) (a : Word) (v : Byte) :
    (s.writeByte a v).hookLog = s.hookLog ++ s.writeEvents a v := by
  unfold State.writeByte State.writeEvents; split <;> simp

theorem State.writeByte_peek (s : State) (a : Word) (v : Byte) (b : Word) :
    (s.writeByte a v).peek b = s.storedAt a v b := by
  unfold State.writeByte State.storedAt
  split
  · rename_i h; simp [h]
  · rename_i h; simp [h, State.peek_poke]

/-- A write to an address no hook covers is a plain store. -/
theorem State.writeByte_of_unhooked {s : State} {a : Word} (h : s.hooked a = false) (v : Byte) :
    s.writeByte a v = s.poke a v := by
  simp [State.writeByte, h]

/-- A write to a hooked address is recorded and stores nothing (R64). -/
theorem State.writeByte_of_hooked {s : State} {a : Word} (h : s.hooked a = true) (v : Byte) :
    s.writeByte a v = s.noteWrite a v := by
  simp [State.writeByte, h]

@[simp] theorem State.writeByte_regs (s : State) (a : Word) (v : Byte) : (s.writeByte a v).regs = s.regs := by
  unfold State.writeByte; split <;> rfl
@[simp] theorem State.writeByte_sp (s : State) (a : Word) (v : Byte) : (s.writeByte a v).sp = s.sp := by
  unfold State.writeByte; split <;> rfl
@[simp] theorem State.writeByte_pc (s : State) (a : Word) (v : Byte) : (s.writeByte a v).pc = s.pc := by
  unfold State.writeByte; split <;> rfl
@[simp] theorem State.writeByte_flags (s : State) (a : Word) (v : Byte) : (s.writeByte a v).flags = s.flags := by
  unfold State.writeByte; split <;> rfl
@[simp] theorem State.writeByte_run (s : State) (a : Word) (v : Byte) : (s.writeByte a v).run = s.run := by
  unfold State.writeByte; split <;> rfl
@[simp] theorem State.writeByte_params (s : State) (a : Word) (v : Byte) : (s.writeByte a v).params = s.params := by
  unfold State.writeByte; split <;> rfl
@[simp] theorem State.writeByte_draws (s : State) (a : Word) (v : Byte) : (s.writeByte a v).draws = s.draws := by
  unfold State.writeByte; split <;> rfl
@[simp] theorem State.writeByte_reg (s : State) (a : Word) (v : Byte) (q : Reg) : (s.writeByte a v).reg q = s.reg q := by
  unfold State.writeByte; split <;> rfl
@[simp] theorem State.writeByte_pair (s : State) (a : Word) (v : Byte) (q : Pair) : (s.writeByte a v).pair q = s.pair q := by
  unfold State.writeByte; split <;> rfl
@[simp] theorem State.writeByte_addrM (s : State) (a : Word) (v : Byte) : (s.writeByte a v).addrM = s.addrM := by
  unfold State.writeByte; split <;> rfl
@[simp] theorem State.writeByte_hooked (s : State) (a : Word) (v : Byte) (b : Word) : (s.writeByte a v).hooked b = s.hooked b := by
  unfold State.writeByte; split <;> rfl

@[simp] theorem State.writeByte_writeEvents (s : State) (a : Word) (v : Byte) (b : Word) (w : Byte) :
    (s.writeByte a v).writeEvents b w = s.writeEvents b w := by
  simp [State.writeEvents]

theorem State.writeByte_wf {s : State} (h : Memory.wf s.mem) (a : Word) (v : Byte) : Memory.wf (s.writeByte a v).mem := by
  unfold State.writeByte
  split
  · exact h
  · exact State.poke_wf h a v

/-! ## read_word -/

theorem State.readWord_fst (s : State) (a : Word) :
    (s.readWord a).1 = joinBytes (s.valueAt (s.draws + s.drawsAt a) (a + 1)) (s.valueAt s.draws a) := by
  simp [State.readWord, State.readByte_fst, State.readByte_snd_draws]

theorem State.readWord_snd_draws (s : State) (a : Word) :
    (s.readWord a).2.draws = s.draws + s.drawsAt a + s.drawsAt (a + 1) := by
  simp [State.readWord, State.readByte_snd_draws]

theorem State.readWord_snd_hookLog (s : State) (a : Word) :
    (s.readWord a).2.hookLog
      = s.hookLog ++ (s.readEvents s.draws a ++ s.readEvents (s.draws + s.drawsAt a) (a + 1)) := by
  simp [State.readWord, State.readByte_snd_hookLog, State.readByte_snd_draws]

@[simp] theorem State.readWord_snd_regs (s : State) (a : Word) : (s.readWord a).2.regs = s.regs := by
  simp [State.readWord]
@[simp] theorem State.readWord_snd_sp (s : State) (a : Word) : (s.readWord a).2.sp = s.sp := by
  simp [State.readWord]
@[simp] theorem State.readWord_snd_pc (s : State) (a : Word) : (s.readWord a).2.pc = s.pc := by
  simp [State.readWord]
@[simp] theorem State.readWord_snd_flags (s : State) (a : Word) : (s.readWord a).2.flags = s.flags := by
  simp [State.readWord]
@[simp] theorem State.readWord_snd_run (s : State) (a : Word) : (s.readWord a).2.run = s.run := by
  simp [State.readWord]
@[simp] theorem State.readWord_snd_mem (s : State) (a : Word) : (s.readWord a).2.mem = s.mem := by
  simp [State.readWord]
@[simp] theorem State.readWord_snd_params (s : State) (a : Word) : (s.readWord a).2.params = s.params := by
  simp [State.readWord]
@[simp] theorem State.readWord_snd_reg (s : State) (a : Word) (q : Reg) : (s.readWord a).2.reg q = s.reg q := by
  simp [State.readWord]
@[simp] theorem State.readWord_snd_pair (s : State) (a : Word) (q : Pair) : (s.readWord a).2.pair q = s.pair q := by
  simp [State.readWord]
@[simp] theorem State.readWord_snd_addrM (s : State) (a : Word) : (s.readWord a).2.addrM = s.addrM := by
  simp [State.readWord]
@[simp] theorem State.readWord_snd_peek (s : State) (a : Word) (b : Word) : (s.readWord a).2.peek b = s.peek b := by
  simp [State.readWord]
@[simp] theorem State.readWord_snd_hooked (s : State) (a : Word) (b : Word) : (s.readWord a).2.hooked b = s.hooked b := by
  simp [State.readWord]

/-- A word read with no hook on its bytes: both bytes from storage, nothing changed (R55). -/
theorem State.readWord_of_unhooked {s : State} {a : Word} (h0 : s.hooked a = false) (h1 : s.hooked (a + 1) = false) :
    s.readWord a = (joinBytes (s.peek (a + 1)) (s.peek a), s) := by
  simp only [State.readWord, State.readByte_of_unhooked h0, State.readByte_of_unhooked h1]

/-! ## write_word -/

theorem State.writeWord_hookLog (s : State) (a v : Word) :
    (s.writeWord a v).hookLog
      = s.hookLog ++ (s.writeEvents a (loByte v) ++ s.writeEvents (a + 1) (hiByte v)) := by
  simp [State.writeWord, State.writeByte_hookLog]

/-- `Mem[b]` after a word write: the second byte's store, then the first's, then what was there. -/
theorem State.writeWord_peek (s : State) (a v b : Word) :
    (s.writeWord a v).peek b
      = if b = a + 1 ∧ s.hooked (a + 1) = false then hiByte v else s.storedAt a (loByte v) b := by
  simp [State.writeWord, State.writeByte_peek, State.storedAt]

@[simp] theorem State.writeWord_regs (s : State) (a v : Word) : (s.writeWord a v).regs = s.regs := by
  simp [State.writeWord]
@[simp] theorem State.writeWord_sp (s : State) (a v : Word) : (s.writeWord a v).sp = s.sp := by
  simp [State.writeWord]
@[simp] theorem State.writeWord_pc (s : State) (a v : Word) : (s.writeWord a v).pc = s.pc := by
  simp [State.writeWord]
@[simp] theorem State.writeWord_flags (s : State) (a v : Word) : (s.writeWord a v).flags = s.flags := by
  simp [State.writeWord]
@[simp] theorem State.writeWord_run (s : State) (a v : Word) : (s.writeWord a v).run = s.run := by
  simp [State.writeWord]
@[simp] theorem State.writeWord_params (s : State) (a v : Word) : (s.writeWord a v).params = s.params := by
  simp [State.writeWord]
@[simp] theorem State.writeWord_draws (s : State) (a v : Word) : (s.writeWord a v).draws = s.draws := by
  simp [State.writeWord]
@[simp] theorem State.writeWord_reg (s : State) (a v : Word) (q : Reg) : (s.writeWord a v).reg q = s.reg q := by
  simp [State.writeWord]
@[simp] theorem State.writeWord_pair (s : State) (a v : Word) (q : Pair) : (s.writeWord a v).pair q = s.pair q := by
  simp [State.writeWord]
@[simp] theorem State.writeWord_addrM (s : State) (a v : Word) : (s.writeWord a v).addrM = s.addrM := by
  simp [State.writeWord]
@[simp] theorem State.writeWord_hooked (s : State) (a v : Word) (b : Word) : (s.writeWord a v).hooked b = s.hooked b := by
  simp [State.writeWord]

theorem State.writeWord_wf {s : State} (h : Memory.wf s.mem) (a v : Word) : Memory.wf (s.writeWord a v).mem :=
  State.writeByte_wf (State.writeByte_wf h _ _) _ _

/-! ## The stack -/

@[simp] theorem State.pushWord_sp (s : State) (v : Word) : (s.pushWord v).sp = s.sp - 2 := by
  simp [State.pushWord]

theorem State.pushWord_hookLog (s : State) (v : Word) :
    (s.pushWord v).hookLog
      = s.hookLog ++ (s.writeEvents (s.sp - 2) (loByte v) ++ s.writeEvents (s.sp - 2 + 1) (hiByte v)) :=
  State.writeWord_hookLog (s.setSp (s.sp - 2)) (s.sp - 2) v

theorem State.pushWord_peek (s : State) (v b : Word) :
    (s.pushWord v).peek b
      = if b = s.sp - 2 + 1 ∧ s.hooked (s.sp - 2 + 1) = false then hiByte v else s.storedAt (s.sp - 2) (loByte v) b :=
  State.writeWord_peek (s.setSp (s.sp - 2)) (s.sp - 2) v b

@[simp] theorem State.pushWord_regs (s : State) (v : Word) : (s.pushWord v).regs = s.regs := by
  simp [State.pushWord]
@[simp] theorem State.pushWord_pc (s : State) (v : Word) : (s.pushWord v).pc = s.pc := by
  simp [State.pushWord]
@[simp] theorem State.pushWord_flags (s : State) (v : Word) : (s.pushWord v).flags = s.flags := by
  simp [State.pushWord]
@[simp] theorem State.pushWord_run (s : State) (v : Word) : (s.pushWord v).run = s.run := by
  simp [State.pushWord]
@[simp] theorem State.pushWord_params (s : State) (v : Word) : (s.pushWord v).params = s.params := by
  simp [State.pushWord]
@[simp] theorem State.pushWord_draws (s : State) (v : Word) : (s.pushWord v).draws = s.draws := by
  simp [State.pushWord]
@[simp] theorem State.pushWord_reg (s : State) (v : Word) (q : Reg) : (s.pushWord v).reg q = s.reg q := by
  simp [State.pushWord]
@[simp] theorem State.pushWord_pair (s : State) (v : Word) (q : Pair) : (s.pushWord v).pair q = s.pair q := by
  simp [State.pushWord]
@[simp] theorem State.pushWord_addrM (s : State) (v : Word) : (s.pushWord v).addrM = s.addrM := by
  simp [State.pushWord]
@[simp] theorem State.pushWord_hooked (s : State) (v : Word) (b : Word) : (s.pushWord v).hooked b = s.hooked b := by
  simp [State.pushWord]

theorem State.pushWord_wf {s : State} (h : Memory.wf s.mem) (v : Word) : Memory.wf (s.pushWord v).mem :=
  State.writeWord_wf (s := s.setSp (s.sp - 2)) h _ _

theorem State.popWord_fst (s : State) :
    s.popWord.1 = joinBytes (s.valueAt (s.draws + s.drawsAt s.sp) (s.sp + 1)) (s.valueAt s.draws s.sp) := by
  simp [State.popWord, State.readWord_fst]

@[simp] theorem State.popWord_sp (s : State) : s.popWord.2.sp = s.sp + 2 := by simp [State.popWord]

theorem State.popWord_draws (s : State) : s.popWord.2.draws = s.draws + s.drawsAt s.sp + s.drawsAt (s.sp + 1) := by
  simp [State.popWord, State.readWord_snd_draws]

theorem State.popWord_hookLog (s : State) :
    s.popWord.2.hookLog
      = s.hookLog ++ (s.readEvents s.draws s.sp ++ s.readEvents (s.draws + s.drawsAt s.sp) (s.sp + 1)) := by
  simp [State.popWord, State.readWord_snd_hookLog]

@[simp] theorem State.popWord_regs (s : State) : s.popWord.2.regs = s.regs := by
  simp [State.popWord]
@[simp] theorem State.popWord_pc (s : State) : s.popWord.2.pc = s.pc := by
  simp [State.popWord]
@[simp] theorem State.popWord_flags (s : State) : s.popWord.2.flags = s.flags := by
  simp [State.popWord]
@[simp] theorem State.popWord_run (s : State) : s.popWord.2.run = s.run := by
  simp [State.popWord]
@[simp] theorem State.popWord_mem (s : State) : s.popWord.2.mem = s.mem := by
  simp [State.popWord]
@[simp] theorem State.popWord_params (s : State) : s.popWord.2.params = s.params := by
  simp [State.popWord]
@[simp] theorem State.popWord_reg (s : State) (q : Reg) : s.popWord.2.reg q = s.reg q := by
  simp [State.popWord]
@[simp] theorem State.popWord_pair (s : State) (q : Pair) : s.popWord.2.pair q = s.pair q := by
  simp [State.popWord]
@[simp] theorem State.popWord_addrM (s : State) : s.popWord.2.addrM = s.addrM := by
  simp [State.popWord]
@[simp] theorem State.popWord_peek (s : State) (b : Word) : s.popWord.2.peek b = s.peek b := by
  simp [State.popWord]
@[simp] theorem State.popWord_hooked (s : State) (b : Word) : s.popWord.2.hooked b = s.hooked b := by
  simp [State.popWord]

end Sys2Proof.Machine
end

