-- ==== Sys2Proof/Laws/Decode.lean ====
section
/-! SUPPORT. The small lemmas of the opcode table, the decoder and the encoder. -/

namespace Sys2Proof

/-- An entry with M is gone when M_FORMS is false; every other entry does not depend on M_FORMS (R97). -/
theorem lookup_mForms (mForms : Bool) (op : Byte) :
    lookup mForms op = (lookup true op).filter (fun f => !f.usesM || mForms) := by
  unfold lookup
  split
  · rename_i f _; cases hf : f.usesM <;> cases mForms <;> simp [Option.filter, hf]
  · rfl

/-- An instruction is well formed when its entry has no M or M_FORMS is true. -/
@[simp] theorem Instr.wellFormed_form (mForms : Bool) (i : Instr) :
    i.wellFormed mForms = (!i.form.usesM || mForms) := rfl

/-- Filling in an operand value keeps the entry. -/
@[simp] theorem Form.instr_form (f : Form) (v : Word) : (f.instr v).form = f := by cases f <;> rfl

@[simp] theorem Form.instr_length (f : Form) (v : Word) : (f.instr v).length = f.format.length := by
  simp [Instr.length]

/-- The value an instruction carries: its operand bytes as a word. -/
def Instr.value : Instr → Word
  | .mviR _ d8 | .mviM d8 => joinBytes 0 d8
  | .lxi _ v | .lda v | .sta v | .jmp v | .call v => v
  | .movRR _ _ | .movRM _ | .movMR _ | .push _ | .pop _ | .inrR _ | .inrM | .dcrR _ | .dcrM | .inx _ | .ret | .hlt => 0

/-- An instruction is its entry with its value. -/
@[simp] theorem Instr.form_instr_value (i : Instr) : i.form.instr i.value = i := by
  cases i <;> simp [Instr.form, Form.instr, Instr.value]

/-- The operand bytes by format: none, the low byte, or the low byte and the high byte (R81). -/
theorem Instr.operandBytes_eq (i : Instr) :
    i.operandBytes = match i.form.format with
      | .f1 => []
      | .f2 => [loByte i.value]
      | .f3 => [loByte i.value, hiByte i.value] := by
  cases i <;> simp [Instr.operandBytes, Instr.form, Form.format, Instr.value, wordBytes]

/-- The number of bytes emitted is the length (R80). -/
theorem encode_length (i : Instr) : (encode i).length = i.length := by
  cases i <;> rfl

/-- An instruction has 1 to 3 bytes (R80). -/
theorem length_bounds (i : Instr) : 1 ≤ i.length ∧ i.length ≤ 3 := by
  unfold Instr.length
  cases i.form.format <;> decide

end Sys2Proof
end

