-- ==== Sys2Proof/Laws/Assembler.lean ====
section
/-! SUPPORT. The encoder of source text: everything a line of pass 1 and a line of pass 2 can answer, what a declaration does to
the label table, and that a form with M needs M_FORMS. -/

namespace Sys2Proof.Machine

/-- A declared label keeps every label that is found already. -/
theorem LabelTable.find_declare_old {labels labels' : LabelTable} {label : Option Text} {addr a : Nat} {name : Text}
    (h : labels.declare label addr = .ok labels') (hf : labels.find name = some a) : labels'.find name = some a := by
  unfold LabelTable.declare at h
  split at h
  · simpa [← Except.ok.inj h] using hf
  · split at h
    · simp at h
    · obtain rfl := Except.ok.inj h
      simp only [LabelTable.find] at hf
      simp [LabelTable.find, List.lookup_append, hf]

/-- A declared label is found at the address of its declaration. -/
theorem LabelTable.find_declare_new {labels labels' : LabelTable} {addr : Nat} {name : Text}
    (h : labels.declare (some name) addr = .ok labels') : labels'.find name = some addr := by
  simp only [LabelTable.declare] at h
  split at h
  · simp at h
  · rename_i hn
    obtain rfl := Except.ok.inj h
    simp only [LabelTable.find, Option.isSome_iff_ne_none, ne_eq, not_not] at hn
    simp [LabelTable.find, List.lookup_append, hn]

/-- When a line of pass 1 succeeds: its label is declared, its code is an instruction or empty, and the address counter goes up
by the instruction's length without passing the memory's size (R110, R113). -/
theorem pass1Line_ok {mForms : Bool} {line : Text} {addr addr' : Nat} {labels labels' : LabelTable} :
    pass1Line mForms line addr labels = .ok (addr', labels') ↔
      ∃ label rest i, splitLabel (codeOf line) = .ok (label, rest) ∧ labels.declare label addr = .ok labels' ∧
        instrOf mForms rest = .ok i ∧ addr' = addr + srcLength i ∧ addr' ≤ Config.memSize := by
  unfold pass1Line
  cases hs : splitLabel (codeOf line) with
  | error e => simp
  | ok lr =>
    obtain ⟨label, rest⟩ := lr
    cases hd : labels.declare label addr with
    | error e => simp [hd]
    | ok l =>
      cases hi : instrOf mForms rest with
      | error e => simp [hd, hi]
      | ok i =>
        by_cases hle : addr + srcLength i ≤ Config.memSize
        · simp only [hd, hi, hle, if_true, Except.ok.injEq, Prod.mk.injEq]
          constructor
          · rintro ⟨rfl, rfl⟩; exact ⟨_, _, _, ⟨rfl, rfl⟩, hd, hi, rfl, hle⟩
          · rintro ⟨_, _, _, ⟨rfl, rfl⟩, hd', hi', rfl, -⟩
            exact ⟨by rw [Except.ok.inj (hi.symm.trans hi')], Except.ok.inj (hd.symm.trans hd')⟩
        · simp only [hd, hi, hle, if_false, reduceCtorEq, Except.ok.injEq, Prod.mk.injEq, false_iff]
          rintro ⟨_, _, _, ⟨rfl, rfl⟩, -, hi', rfl, hle'⟩
          exact hle (Except.ok.inj (hi.symm.trans hi') ▸ hle')

/-- When a line of pass 2 succeeds: its code is empty and gives nothing, or an instruction with its value resolved (R110). -/
theorem pass2Line_ok {mForms : Bool} {labels : LabelTable} {line : Text} {o : Option Instr} :
    pass2Line mForms labels line = .ok o ↔
      ∃ label rest, splitLabel (codeOf line) = .ok (label, rest) ∧
        (instrOf mForms rest = .ok none ∧ o = none ∨
          ∃ j i, instrOf mForms rest = .ok (some j) ∧ j.instr labels = .ok i ∧ o = some i) := by
  unfold pass2Line
  cases hs : splitLabel (codeOf line) with
  | error e => simp
  | ok lr =>
    obtain ⟨label, rest⟩ := lr
    cases hi : instrOf mForms rest with
    | error e => simp [hi]
    | ok o' =>
      cases o' with
      | none => simp [hi, eq_comm]
      | some j => cases hj : j.instr labels <;> simp [hi, hj, eq_comm]

/-- Resolving the value of a source instruction keeps its table entry. -/
theorem SrcInstr.instr_form {labels : LabelTable} {j : SrcInstr} {i : Instr} (h : j.instr labels = .ok i) :
    i.form = j.form := by
  unfold SrcInstr.instr at h
  split at h
  · simp at h
  · rw [← Except.ok.inj h, Form.instr_form]

/-- Resolving a value fails in two ways only (R115). -/
theorem resolve_error {labels : LabelTable} {fmt : Format} {v : SrcValue} {e : AsmErrorKind}
    (h : resolve labels fmt v = .error e) : e = .undefinedLabel ∨ e = .literalRange := by
  unfold resolve at h
  repeat' split at h
  all_goals simp at h
  all_goals simp [← h]

/-- The operand M is read as such only when M_FORMS is true (R97, R104). -/
theorem operandOf_m {mForms : Bool} {t : Text} (h : operandOf mForms t = .ok .m) : mForms = true := by
  unfold operandOf at h
  split at h
  · simp at h
  · split at h
    · rename_i hm; simp at hm; exact hm.1
    · repeat' split at h
      all_goals simp at h

theorem operandsOf_m {mForms : Bool} {t : Text} {ops : List Operand} (h : operandsOf mForms t = .ok ops)
    (hm : Operand.m ∈ ops) : mForms = true := by
  have key : ∀ (us : List Text) (ops : List Operand),
      us.mapM (fun u => operandOf mForms (trim u)) = Except.ok (ε := AsmErrorKind) ops → Operand.m ∈ ops → mForms = true := by
    intro us
    induction us with
    | nil => intro ops h hm; obtain rfl : [] = ops := by simpa [pure, Except.pure] using h
             simp at hm
    | cons u us ih =>
      intro ops h hm
      cases ho : operandOf mForms (trim u) with
      | error e => simp [ho, bind, Except.bind] at h
      | ok o =>
        cases hr : us.mapM (fun u => operandOf mForms (trim u)) with
        | error e => simp [ho, hr, bind, Except.bind] at h
        | ok os =>
          obtain rfl : o :: os = ops := by simpa [ho, hr, bind, Except.bind, pure, Except.pure] using h
          rcases List.mem_cons.1 hm with rfl | hm
          · exact operandOf_m ho
          · exact ih _ hr hm
  unfold operandsOf at h
  split at h
  · obtain rfl := Except.ok.inj h; simp at hm
  · exact key _ _ h hm

/-- An entry with M has the operand M in its source form (R108). -/
theorem shapeOf_usesM {mn : Mnemonic} {ops : List Operand} {j : SrcInstr} (h : shapeOf mn ops = some j)
    (hm : j.form.usesM = true) : Operand.m ∈ ops := by
  unfold shapeOf at h
  split at h <;> simp_all [Option.map_eq_some_iff] <;> grind [Form.usesM]

/-- A source instruction exists in the machine it is assembled for (R97). -/
theorem instrOf_usesM {mForms : Bool} {code : Text} {j : SrcInstr} (h : instrOf mForms code = .ok (some j)) :
    (!j.form.usesM || mForms) = true := by
  unfold instrOf at h
  split at h
  · simp at h
  · split at h
    · simp at h
    · split at h
      · simp at h
      · rename_i ho
        split at h
        · simp at h
        · rename_i hj
          obtain rfl : _ = j := by simpa using h
          cases hu : Form.usesM _ with
          | false => rfl
          | true => simp [operandsOf_m ho (shapeOf_usesM hj hu)]

end Sys2Proof.Machine
end

