-- ==== Sys2Proof/Laws/Fetch.lean ====
section
/-! SUPPORT. Everything the reads of a fetch can do: the operand value, what stays as it was, and the record of hooked
accesses. -/

namespace Sys2Proof.Machine

/-- The value of an operand read at `a`, by format, when `n` draws have been made (R87, R88). -/
def State.operandAt (s : State) (fmt : Format) (n : Nat) (a : Word) : Word :=
  match fmt with
  | .f1 => 0
  | .f2 => joinBytes 0 (s.valueAt n (a + 1))
  | .f3 => joinBytes (s.valueAt (n + s.drawsAt (a + 1)) (a + 2)) (s.valueAt n (a + 1))

/-- The draws of an operand read at `a`, by format. -/
def State.operandDraws (s : State) (fmt : Format) (a : Word) : Nat :=
  match fmt with
  | .f1 => 0
  | .f2 => s.drawsAt (a + 1)
  | .f3 => s.drawsAt (a + 1) + s.drawsAt (a + 2)

/-- What an operand read at `a` adds to the record, by format, when `n` draws have been made. -/
def State.operandEvents (s : State) (fmt : Format) (n : Nat) (a : Word) : List HookEvent :=
  match fmt with
  | .f1 => []
  | .f2 => s.readEvents n (a + 1)
  | .f3 => s.readEvents n (a + 1) ++ s.readEvents (n + s.drawsAt (a + 1)) (a + 2)

/-- The state after the fetch of an instruction of this format at `a`: only the draws and the record have changed. -/
def State.afterFetch (s : State) (fmt : Format) (a : Word) : State :=
  { s with
    draws := s.draws + s.drawsAt a + s.operandDraws fmt a
    hookLog := s.hookLog ++ s.readEvents s.draws a ++ s.operandEvents fmt (s.draws + s.drawsAt a) a }

/-- A read's state, written out: only the draws and the record change. -/
theorem State.readByte_snd (s : State) (a : Word) :
    (s.readByte a).2 = { s with draws := s.draws + s.drawsAt a, hookLog := s.hookLog ++ s.readEvents s.draws a } := by
  unfold State.readByte State.drawsAt State.readEvents
  split <;> simp [State.noteRead]

/-- The decoder at an address (R98): no entry, no instruction; an entry, its instruction with the operand value by format. -/
theorem State.decodeAt_eq (s : State) (a : Word) :
    s.decodeAt a = (lookup s.params.mForms (s.valueAt s.draws a)).map
      (fun f => (f.instr (s.operandAt f.format (s.draws + s.drawsAt a) a), s.afterFetch f.format a)) := by
  simp only [State.decodeAt, State.readByte_fst]
  cases hl : lookup s.params.mForms (s.valueAt s.draws a) with
  | none => rfl
  | some f =>
    simp only [Option.map_some]
    cases hf : f.format
    · simp [State.readOperand, State.operandAt, State.afterFetch, State.operandDraws, State.operandEvents,
        State.readByte_snd]
    · simp [State.readOperand, State.readImm8, State.operandAt, State.afterFetch, State.operandDraws,
        State.operandEvents, State.readByte_snd, State.readByte_fst, State.valueAt, State.drawsAt, State.readEvents,
        State.hooked, State.peek]
    · simp [State.readOperand, State.readImm16, State.operandAt, State.afterFetch, State.operandDraws,
        State.operandEvents, State.readByte_snd, State.readByte_fst, State.valueAt, State.drawsAt, State.readEvents,
        State.hooked, State.peek, Nat.add_assoc]

/-- What a successful decode gives: the entry of the byte, the instruction's value and the state after the reads. -/
theorem State.decodeAt_some {s u : State} {a : Word} {i : Instr} (h : s.decodeAt a = some (i, u)) :
    lookup s.params.mForms (s.valueAt s.draws a) = some i.form ∧
      i = i.form.instr (s.operandAt i.form.format (s.draws + s.drawsAt a) a) ∧ u = s.afterFetch i.form.format a := by
  rw [State.decodeAt_eq, Option.map_eq_some_iff] at h
  obtain ⟨f, hf, he⟩ := h
  obtain ⟨rfl, rfl⟩ := Prod.mk.inj he
  simpa using hf

/-- A decode fails exactly when the byte read at the address has no entry. -/
theorem State.decodeAt_none {s : State} {a : Word} :
    s.decodeAt a = none ↔ lookup s.params.mForms (s.valueAt s.draws a) = none := by
  rw [State.decodeAt_eq, Option.map_eq_none_iff]

/-- With no hook the state after a fetch is the state before it. -/
theorem State.afterFetch_of_unhooked {s : State} {fmt : Format} {a : Word} (h : s.Unhooked a fmt.length) :
    s.afterFetch fmt a = s := by
  have h0 : s.hooked a = false := by simpa using h 0 (by cases fmt <;> decide)
  cases fmt
  · simp [State.afterFetch, State.operandDraws, State.operandEvents, State.drawsAt, State.readEvents, h0]
  · have h1 : s.hooked (a + 1) = false := h 1 (by decide)
    simp only [State.afterFetch, State.operandDraws, State.operandEvents, State.drawsAt, State.readEvents, h0, h1]
    simp
  · have h1 : s.hooked (a + 1) = false := h 1 (by decide)
    have h2 : s.hooked (a + 2) = false := h 2 (by decide)
    simp only [State.afterFetch, State.operandDraws, State.operandEvents, State.drawsAt, State.readEvents, h0, h1, h2]
    simp

end Sys2Proof.Machine
end

