-- ==== Sys2Proof/Laws/Launch.lean ====
section
/-! SUPPORT. The creation of a run: what plain stores of a list of bytes do, and everything the registration of hooks and the
loading of an image can answer. -/

namespace Sys2Proof.Machine

/-- Plain stores change the memory alone. -/
theorem State.pokeBytes_eq (bs : List Byte) :
    ∀ (s : State) (a : Word), s.pokeBytes a bs = { s with mem := (s.pokeBytes a bs).mem } := by
  induction bs with
  | nil => intro s a; rfl
  | cons v bs ih => intro s a; rw [State.pokeBytes, ih]; rfl

/-- Plain stores keep the canonical form. -/
theorem State.pokeBytes_wf (bs : List Byte) :
    ∀ {s : State} (a : Word), Memory.wf s.mem → Memory.wf (s.pokeBytes a bs).mem := by
  induction bs with
  | nil => intro s a h; exact h
  | cons v bs ih => intro s a h; exact ih _ (State.poke_wf h a v)

/-- Plain stores at an address leave every other address outside them as it was. -/
theorem State.peek_pokeBytes_outside (bs : List Byte) :
    ∀ (s : State) (a b : Word), (∀ j < bs.length, b ≠ a + BitVec.ofNat 16 j) → (s.pokeBytes a bs).peek b = s.peek b := by
  induction bs with
  | nil => intro s a b _; rfl
  | cons v bs ih =>
    intro s a b h
    rw [State.pokeBytes, ih, State.peek_poke, if_neg (by simpa using h 0 (by simp))]
    intro j hj hb
    refine h (j + 1) (by simpa using hj) (hb.trans ?_)
    rw [BitVec.add_assoc, show (1 : Word) + BitVec.ofNat 16 j = BitVec.ofNat 16 (j + 1) by
      rw [BitVec.add_comm]; exact (BitVec.ofNat_add j 1).symm]

/-- Of at most 65536 bytes stored from `a` on, the byte at `a + j` is the `j`-th. -/
theorem State.peek_pokeBytes (bs : List Byte) :
    ∀ (s : State) (a : Word) (j : Nat) (v : Byte), bs.length ≤ 65536 → bs[j]? = some v →
      (s.pokeBytes a bs).peek (a + BitVec.ofNat 16 j) = v := by
  induction bs with
  | nil => intro s a j v _ h; simp at h
  | cons w bs ih =>
    intro s a j v hl h
    rw [List.length_cons] at hl
    cases j with
    | zero =>
      obtain rfl : w = v := by simpa using h
      rw [State.pokeBytes, State.peek_pokeBytes_outside, State.peek_poke]
      · simp
      · intro j hj hb
        have := congrArg BitVec.toNat hb
        simp only [BitVec.toNat_add, BitVec.toNat_ofNat, show (1 : Word).toNat = 1 from rfl] at this
        have := a.isLt
        omega
    | succ j =>
      rw [show a + BitVec.ofNat 16 (j + 1) = a + 1 + BitVec.ofNat 16 j by
        rw [BitVec.ofNat_add, BitVec.add_assoc, BitVec.add_comm (BitVec.ofNat 16 j)]; rfl, State.pokeBytes]
      exact ih _ _ _ _ (by omega) (by simpa using h)

/-- A memory from cells has the canonical form. -/
theorem Memory.ofCells_wf (cells : List Host.Cell) : Memory.wf (Memory.ofCells cells) := by
  have key : ∀ (cs : List Host.Cell) (m : Memory), Memory.wf m →
      Memory.wf (cs.foldl (fun m x => Memory.set m (x.1 % Config.memSize) x.2) m) := by
    intro cs
    induction cs with
    | nil => exact fun _ h => h
    | cons x cs ih => exact fun m h => ih _ (Memory.wf_set h (Nat.mod_lt _ (by decide)) _)
  exact key cells [] ⟨List.Pairwise.nil, by simp⟩

/-- A hook is registered exactly when its range is a range and overlaps none registered before (R62, R63). -/
theorem State.registerHook_ok {s t : State} {k : Hook} :
    s.registerHook k = .ok t ↔ k.lo ≤ k.hi ∧ (∀ j ∈ s.params.hooks, j.overlaps k = false) ∧
      t = { s with params := { s.params with hooks := s.params.hooks ++ [k] } } := by
  unfold State.registerHook
  split
  · rename_i h; simp [BitVec.not_le.2 h]
  · rename_i h
    have h := BitVec.not_lt.1 h
    split
    · rename_i ho
      obtain ⟨j, hj, ho⟩ := List.any_eq_true.1 ho
      simp only [reduceCtorEq, false_iff]
      rintro ⟨-, hn, -⟩
      simp [hn j hj] at ho
    · rename_i ho
      simp only [List.any_eq_true, not_exists, not_and, Bool.not_eq_true] at ho
      simp only [Except.ok.injEq, h, true_and]
      exact ⟨fun e => ⟨ho, e.symm⟩, fun e => e.2.symm⟩

/-- An image is loaded exactly when it fits in the memory and meets no hook, and is then stored from address 0 on (R230). -/
theorem State.loadImage_ok {s t : State} {image : List Byte} :
    s.loadImage image = .ok t ↔ image.length ≤ 65536 ∧ (∀ k ∈ s.params.hooks, image.length ≤ k.lo.toNat) ∧
      t = s.pokeBytes 0 image := by
  unfold State.loadImage
  split
  · rename_i h; simp only [reduceCtorEq, false_iff]; rintro ⟨hn, -⟩; simp [Config.memSize] at h; omega
  · rename_i h
    have h : image.length ≤ 65536 := by simpa [Config.memSize] using h
    split
    · rename_i ho
      obtain ⟨k, hk, ho⟩ := List.any_eq_true.1 ho
      simp only [reduceCtorEq, false_iff]
      rintro ⟨-, hn, -⟩
      have := hn k hk
      simp at ho
      omega
    · rename_i ho
      simp only [List.any_eq_true, decide_eq_true_eq, not_exists, not_and, not_lt] at ho
      simp only [Except.ok.injEq, h, true_and]
      exact ⟨fun e => ⟨ho, e.symm⟩, fun e => e.2.symm⟩

end Sys2Proof.Machine
end

