-- ==== Sys2Proof/Laws/PerInstr.lean ====
section
/-! SUPPORT. Facts about every instruction as syntax, one lemma for each constructor. -/

/-- The encoder emits as many bytes as the instruction is long, the first of them its opcode byte, and that is 1 to 3 (R80,
R81, R112). -/
def Sys2Proof.Laws.EncodedLength.Statement (i : Sys2Proof.Instr) : Prop :=
  (Sys2Proof.encode i).length = i.length ∧ 1 ≤ i.length ∧ i.length ≤ 3 ∧
    (Sys2Proof.encode i).head? = some i.form.opcode

namespace Sys2Proof.Laws.EncodedLength

theorem movRR (dst src : Reg) : Statement (.movRR dst src) := ⟨rfl, (length_bounds _).1, (length_bounds _).2, rfl⟩
theorem movRM (dst : Reg) : Statement (.movRM dst) := ⟨rfl, (length_bounds _).1, (length_bounds _).2, rfl⟩
theorem movMR (src : Reg) : Statement (.movMR src) := ⟨rfl, (length_bounds _).1, (length_bounds _).2, rfl⟩
theorem mviR (dst : Reg) (d8 : Byte) : Statement (.mviR dst d8) := ⟨rfl, (length_bounds _).1, (length_bounds _).2, rfl⟩
theorem mviM (d8 : Byte) : Statement (.mviM d8) := ⟨rfl, (length_bounds _).1, (length_bounds _).2, rfl⟩
theorem lxi (p : Pair) (d16 : Word) : Statement (.lxi p d16) := ⟨rfl, (length_bounds _).1, (length_bounds _).2, rfl⟩
theorem lda (a16 : Word) : Statement (.lda a16) := ⟨rfl, (length_bounds _).1, (length_bounds _).2, rfl⟩
theorem sta (a16 : Word) : Statement (.sta a16) := ⟨rfl, (length_bounds _).1, (length_bounds _).2, rfl⟩
theorem push (p : Pair) : Statement (.push p) := ⟨rfl, (length_bounds _).1, (length_bounds _).2, rfl⟩
theorem pop (p : Pair) : Statement (.pop p) := ⟨rfl, (length_bounds _).1, (length_bounds _).2, rfl⟩
theorem inrR (r : Reg) : Statement (.inrR r) := ⟨rfl, (length_bounds _).1, (length_bounds _).2, rfl⟩
theorem inrM : Statement .inrM := ⟨rfl, (length_bounds _).1, (length_bounds _).2, rfl⟩
theorem dcrR (r : Reg) : Statement (.dcrR r) := ⟨rfl, (length_bounds _).1, (length_bounds _).2, rfl⟩
theorem dcrM : Statement .dcrM := ⟨rfl, (length_bounds _).1, (length_bounds _).2, rfl⟩
theorem inx (p : Pair) : Statement (.inx p) := ⟨rfl, (length_bounds _).1, (length_bounds _).2, rfl⟩
theorem jmp (a16 : Word) : Statement (.jmp a16) := ⟨rfl, (length_bounds _).1, (length_bounds _).2, rfl⟩
theorem call (a16 : Word) : Statement (.call a16) := ⟨rfl, (length_bounds _).1, (length_bounds _).2, rfl⟩
theorem ret : Statement .ret := ⟨rfl, (length_bounds _).1, (length_bounds _).2, rfl⟩
theorem hlt : Statement .hlt := ⟨rfl, (length_bounds _).1, (length_bounds _).2, rfl⟩

end Sys2Proof.Laws.EncodedLength
end

