-- ==== Sys2Proof/Laws/Step.lean ====
section
/-! SUPPORT. Everything a step can do, said once: when it gives a next state, when it faults, when it is refused. -/

namespace Sys2Proof.Machine

/-- No action faults or is refused: every instruction gives a next state. -/
theorem exec_next (i : Instr) (s : State) : ∃ t, exec i s = .next t := by
  cases i <;> exact ⟨_, rfl⟩

/-- A step gives a next state exactly when the machine runs, the bytes at PC decode, and the action on the state after the
fetch with PC advanced gives it (R131). -/
theorem step_next_iff {s t : State} :
    step s = .next t ↔ s.run = .running ∧
      ∃ i u, s.decodeAt s.pc = some (i, u) ∧ exec i (u.setPc (s.pc + BitVec.ofNat 16 i.length)) = .next t := by
  unfold step State.fetchNext
  cases hr : s.run with
  | halted => simp
  | running =>
    cases hd : s.decodeAt s.pc with
    | none => simp [raiseInvalidOpcode]
    | some r =>
      obtain ⟨i, u⟩ := r
      obtain ⟨-, -, rfl⟩ := State.decodeAt_some hd
      simp [State.advancePc, State.afterFetch]

/-- A step faults exactly when the machine runs and the bytes at PC do not decode, and then with InvalidOpcode(PC) (R135). -/
theorem step_fault_iff {s : State} {f : Fault} :
    step s = .fault f ↔ s.run = .running ∧ s.decodeAt s.pc = none ∧ f = .invalidOpcode s.pc := by
  unfold step State.fetchNext
  cases hr : s.run with
  | halted => simp
  | running =>
    cases hd : s.decodeAt s.pc with
    | none => simp [raiseInvalidOpcode, eq_comm]
    | some r =>
      obtain ⟨t, ht⟩ := exec_next r.1 (r.2.advancePc r.1.length)
      simp [ht]

/-- A step is refused exactly when the machine is halted (R138). -/
theorem step_refused_iff {s : State} {q : Refusal} : step s = .refused q ↔ s.run = .halted ∧ q = .halted := by
  unfold step State.fetchNext
  cases hr : s.run with
  | halted => simp [eq_comm]
  | running =>
    cases hd : s.decodeAt s.pc with
    | none => simp [raiseInvalidOpcode]
    | some r =>
      obtain ⟨t, ht⟩ := exec_next r.1 (r.2.advancePc r.1.length)
      simp [ht]

end Sys2Proof.Machine
end

