-- ==== Sys2Proof/Tests/Slice0.lean ====
section
/-! SUPPORT. Tests of the model. The expected results come from spec/95_test_vectors.md (the vector is named at each test) or
from the rule named there. The last part holds a witness for the hypotheses of every statement that has some. -/

namespace Sys2Proof.Tests

open Sys2Proof.Machine

/-! ## A small state -/

/-- The start state of the vectors of 95 §2: SP 0100, everything else 0, with these bytes stored at PC. -/
def at_ (pc : Word) (bytes : List Byte) : State :=
  ({ State.reset with pc := pc, sp := 0x0100 } : State).pokeBytes pc bytes

/-- The flags Z S P CY AC in the order of 95 §2. -/
def fl (z s p cy ac : Bool) : Flags := ⟨z, s, p, cy, ac⟩

/-- The state with CY alone set, the start of the vectors of 95 §2.4. -/
def withCy (s : State) : State := s.setFlags (fl false false false true false)

/-- The step gives a next state that meets the test. -/
def steps (s : State) (p : State → Bool) : Bool :=
  match step s with
  | .next t => p t
  | .fault _ | .refused _ => false

/-- The step raises InvalidOpcode at this address. -/
def faultsAt (s : State) (a : Word) : Bool :=
  match step s with
  | .fault f => f == .invalidOpcode a
  | .next _ | .refused _ => false

/-- The hook of V-ME6 and V-ME7, on 2000 to 20FF. -/
def hooked (s : State) : State := { s with params := { s.params with hooks := [⟨0x2000, 0x20FF, 7⟩] } }

/-! ## Decoding: one word for each form, written out from the encodings of R91 (95 §2.8), read and written back -/

theorem test_decode_movRR : decode true [0x41] = .ok (.movRR .b .c, []) ∧ encode (.movRR .b .c) = [0b01000001] := ⟨rfl, rfl⟩
theorem test_decode_movRM : decode true [0x5E] = .ok (.movRM .e, []) ∧ encode (.movRM .e) = [0b01011110] := ⟨rfl, rfl⟩
theorem test_decode_movMR : decode true [0x72] = .ok (.movMR .d, []) ∧ encode (.movMR .d) = [0b01110010] := ⟨rfl, rfl⟩
theorem test_decode_mviR : decode true [0x0E, 0x7F] = .ok (.mviR .c 0x7F, []) ∧ encode (.mviR .c 0x7F) = [0b00001110, 0x7F] :=
  ⟨rfl, rfl⟩
theorem test_decode_mviM : decode true [0x36, 0x00] = .ok (.mviM 0, []) ∧ encode (.mviM 0) = [0b00110110, 0x00] := ⟨rfl, rfl⟩
theorem test_decode_lxi : decode true [0x11, 0xFF, 0x00] = .ok (.lxi .de 0x00FF, []) ∧
    encode (.lxi .de 0x00FF) = [0b00010001, 0xFF, 0x00] := ⟨rfl, rfl⟩
theorem test_decode_lda : decode true [0x3A, 0x01, 0x80] = .ok (.lda 0x8001, []) ∧
    encode (.lda 0x8001) = [0b00111010, 0x01, 0x80] := ⟨rfl, rfl⟩
theorem test_decode_sta : decode true [0x32, 0xFF, 0xFF] = .ok (.sta 0xFFFF, []) ∧
    encode (.sta 0xFFFF) = [0b00110010, 0xFF, 0xFF] := ⟨rfl, rfl⟩
theorem test_decode_push : decode true [0xE5] = .ok (.push .hl, []) ∧ encode (.push .hl) = [0b11100101] := ⟨rfl, rfl⟩
theorem test_decode_pop : decode true [0xC1] = .ok (.pop .bc, []) ∧ encode (.pop .bc) = [0b11000001] := ⟨rfl, rfl⟩
theorem test_decode_inrR : decode true [0x1C] = .ok (.inrR .e, []) ∧ encode (.inrR .e) = [0b00011100] := ⟨rfl, rfl⟩
theorem test_decode_inrM : decode true [0x34] = .ok (.inrM, []) ∧ encode .inrM = [0b00110100] := ⟨rfl, rfl⟩
theorem test_decode_dcrR : decode true [0x25] = .ok (.dcrR .h, []) ∧ encode (.dcrR .h) = [0b00100101] := ⟨rfl, rfl⟩
theorem test_decode_dcrM : decode true [0x35] = .ok (.dcrM, []) ∧ encode .dcrM = [0b00110101] := ⟨rfl, rfl⟩
theorem test_decode_inx : decode true [0x23] = .ok (.inx .hl, []) ∧ encode (.inx .hl) = [0b00100011] := ⟨rfl, rfl⟩
theorem test_decode_jmp : decode true [0xC3, 0x00, 0x00] = .ok (.jmp 0, []) ∧ encode (.jmp 0) = [0b11000011, 0, 0] := ⟨rfl, rfl⟩
theorem test_decode_call : decode true [0xCD, 0x34, 0x12] = .ok (.call 0x1234, []) ∧
    encode (.call 0x1234) = [0b11001101, 0x34, 0x12] := ⟨rfl, rfl⟩
theorem test_decode_ret : decode true [0xC9] = .ok (.ret, []) ∧ encode .ret = [0b11001001] := ⟨rfl, rfl⟩
theorem test_decode_hlt : decode true [0x76] = .ok (.hlt, []) ∧ encode .hlt = [0b01110110] := ⟨rfl, rfl⟩

/-- 95 §2.8, last row: FF is Invalid; and bytes that end inside an instruction are refused. -/
theorem test_decode_refuses : decode true [0xFF] = .error (.invalidOpcode 0xFF) ∧ decode true [] = .error .truncated ∧
    decode true [0x3E] = .error .truncated ∧ decode true [0xC3, 0x00] = .error .truncated := ⟨rfl, rfl, rfl, rfl⟩

/-- The rest of the bytes comes back (R83). -/
theorem test_decode_rest : decode true [0x3E, 0x01, 0x76] = .ok (.mviR .a 1, [0x76]) := rfl

set_option maxRecDepth 20000 in
/-- R94: 151 of the 256 bytes have no entry with M_FORMS true, 168 with M_FORMS false. -/
theorem test_illegal_count :
    ((List.range 256).countP fun n => (lookup true (BitVec.ofNat 8 n)).isNone) = 151 ∧
      ((List.range 256).countP fun n => (lookup false (BitVec.ofNat 8 n)).isNone) = 168 := by decide

/-! ## WellFormed: the one check (R97), refused for each form with M -/

theorem test_wellFormed_refuses_movRM : Instr.wellFormed false (.movRM .a) = false := by decide
theorem test_wellFormed_refuses_movMR : Instr.wellFormed false (.movMR .a) = false := by decide
theorem test_wellFormed_refuses_mviM : Instr.wellFormed false (.mviM 0) = false := by decide
theorem test_wellFormed_refuses_inrM : Instr.wellFormed false .inrM = false := by decide
theorem test_wellFormed_refuses_dcrM : Instr.wellFormed false .dcrM = false := by decide
theorem test_wellFormed_accepts : Instr.wellFormed true .dcrM = true ∧ Instr.wellFormed false (.dcrR .a) = true := by decide

/-! ## The opcode table's words -/

/-- The numbering of opcode_table.json: the second byte is bits 15 to 8, the third bits 23 to 16. -/
theorem test_tableWord : decodeTableWord 24 0x123421 = some (.lxi .hl 0x1234) ∧ decodeTableWord 8 0x3E = some (.mviR .a 0) ∧
    decodeTableWord 8 0xC3 = some (.jmp 0) ∧ decodeTableWord 8 0x00 = none := by decide

/-- A word placed for the next step is what that step runs, also across the top of memory. -/
theorem test_withFetchWord : steps (State.reset.withFetchWord 24 0x123421) (fun t => t.pair .hl == 0x1234 && t.pc == 3) ∧
    steps (({ State.reset with pc := 0xFFFF } : State).withFetchWord 16 0x993E) (fun t => t.reg .a == 0x99 && t.pc == 1) := by
  decide

/-- The placing keeps memory canonical and takes a hook away from the bytes it places. -/
theorem test_withFetchWord_hook : Memory.wf ((hooked (at_ 0x20FF [])).withFetchWord 8 0x76).mem ∧
    steps ((hooked (at_ 0x20FF [])).withFetchWord 8 0x76) (fun t => t.run == .halted) := by decide

/-! ## Data transfer (95 §2.1 to §2.3) -/

/-- V-DT1. -/
theorem test_mvi_zero_keeps_flags :
    steps (((at_ 0x0200 [0x16, 0x00]).setReg .d 0x55).setFlags (fl false true false true true))
      (fun t => t.reg .d == 0 && t.pc == 0x0202 && t.flags == fl false true false true true) := by decide
/-- V-DT4. -/
theorem test_mvi_wraps : steps ((at_ 0xFFFF [0x3E, 0x99]).setReg .a 1) (fun t => t.reg .a == 0x99 && t.pc == 1) := by decide
/-- V-DT3. -/
theorem test_mvi_m : steps ((at_ 0x0200 [0x36, 0xA5]).setPair .hl 0xFFFF) (fun t => t.peek 0xFFFF == 0xA5 && t.pc == 0x0202) := by
  decide
/-- V-DT5. -/
theorem test_lda : steps ((at_ 0x0200 [0x3A, 0x88, 0x88]).poke 0x8888 0x2A) (fun t => t.reg .a == 0x2A && t.pc == 0x0203) := by
  decide
/-- V-DT6. -/
theorem test_lda_own_opcode : steps (at_ 0x0200 [0x3A, 0x00, 0x02]) (fun t => t.reg .a == 0x3A && t.pc == 0x0203) := by decide
/-- V-DT7 (the source's scenario 4, S4). -/
theorem test_sta : steps ((at_ 0x0200 [0x32, 0x88, 0x88]).setReg .a 0x2A) (fun t => t.peek 0x8888 == 0x2A && t.pc == 0x0203) := by
  decide
/-- V-DT8. -/
theorem test_sta_wraps : steps ((at_ 0xFFFF [0x32, 0x34, 0x12]).setReg .a 0x5A) (fun t => t.peek 0x1234 == 0x5A && t.pc == 2) := by
  decide
/-- V-DT9. -/
theorem test_lxi : steps (at_ 0x0200 [0x01, 0x34, 0x12]) (fun t => t.reg .b == 0x12 && t.reg .c == 0x34 && t.pc == 0x0203) := by
  decide
/-- V-DT12. -/
theorem test_lxi_wraps : steps (at_ 0xFFFE [0x21, 0xCD, 0xAB]) (fun t => t.reg .h == 0xAB && t.reg .l == 0xCD && t.pc == 1) := by
  decide
/-- V-MV1. -/
theorem test_mov : steps ((at_ 0x0200 [0x78]).setReg .b 0x5C) (fun t => t.reg .a == 0x5C && t.reg .b == 0x5C && t.pc == 0x0201) := by
  decide
/-- V-MV2. -/
theorem test_mov_self : step ((at_ 0x0200 [0x40]).setReg .b 0x77) = .next (((at_ 0x0200 [0x40]).setReg .b 0x77).setPc 0x0201) :=
  rfl
/-- V-MV3. -/
theorem test_mov_h_m : steps (((at_ 0x0200 [0x66]).setPair .hl 0x1234).poke 0x1234 0xAB)
    (fun t => t.reg .h == 0xAB && t.reg .l == 0x34 && t.pc == 0x0201) := by decide
/-- V-MV4. -/
theorem test_mov_l_m : steps (((at_ 0x0200 [0x6E]).setPair .hl 0x1234).poke 0x1234 0xAB)
    (fun t => t.reg .h == 0x12 && t.reg .l == 0xAB && t.pc == 0x0201) := by decide
/-- V-MV7. -/
theorem test_mov_m_h : steps ((at_ 0x0200 [0x74]).setPair .hl 0x3005) (fun t => t.peek 0x3005 == 0x30 && t.pc == 0x0201) := by
  decide
/-- V-MV8. -/
theorem test_mov_m_l_over_itself : steps ((at_ 0x0200 [0x75]).setPair .hl 0x0200) (fun t => t.peek 0x0200 == 0 && t.pc == 0x0201) := by
  decide
/-- V-ST2. -/
theorem test_push_wraps : steps (((at_ 0x0200 [0xD5]).setPair .de 0xDEAD).setSp 1)
    (fun t => t.sp == 0xFFFF && t.peek 0xFFFF == 0xAD && t.peek 0 == 0xDE && t.pc == 0x0201) := by decide
/-- V-ST3. -/
theorem test_push_below_zero : steps (((at_ 0x0200 [0xE5]).setPair .hl 0xBEEF).setSp 0)
    (fun t => t.sp == 0xFFFE && t.peek 0xFFFE == 0xEF && t.peek 0xFFFF == 0xBE) := by decide
/-- V-ST5. -/
theorem test_pop_wraps : steps ((((at_ 0x0200 [0xE1]).setSp 0xFFFF).poke 0xFFFF 0xCD).poke 0 0xAB)
    (fun t => t.reg .h == 0xAB && t.reg .l == 0xCD && t.sp == 1 && t.pc == 0x0201) := by decide
/-- V-ST6. -/
theorem test_pop_to_zero : steps ((((at_ 0x0200 [0xC1]).setSp 0xFFFE).poke 0xFFFE 0x11).poke 0xFFFF 0x22)
    (fun t => t.reg .b == 0x22 && t.reg .c == 0x11 && t.sp == 0) := by decide

/-! ## Arithmetic (95 §2.4) -/

/-- V-AR4. -/
theorem test_inr_to_sign : steps (withCy ((at_ 0x0200 [0x3C]).setReg .a 0x7F))
    (fun t => t.reg .a == 0x80 && t.flags == fl false true false true true && t.pc == 0x0201) := by decide
/-- V-AR7. -/
theorem test_inr_no_carry_into_h : steps ((at_ 0x0200 [0x2C]).setPair .hl 0x12FF)
    (fun t => t.pair .hl == 0x1200 && t.flags == fl true false true false true) := by decide
/-- V-AR15. -/
theorem test_inr_m : steps (((at_ 0x0200 [0x34]).setPair .hl 0x0040).poke 0x0040 0x7F)
    (fun t => t.peek 0x0040 == 0x80 && t.flags == fl false true false false true) := by decide
/-- V-AR8. -/
theorem test_dcr_wraps : steps (withCy (at_ 0x0200 [0x3D])) (fun t => t.reg .a == 0xFF && t.flags == fl false true true true false) := by
  decide
/-- V-AR10. -/
theorem test_dcr : steps (withCy ((at_ 0x0200 [0x3D]).setReg .a 2))
    (fun t => t.reg .a == 1 && t.flags == fl false false false true true) := by decide
/-- V-AR16. -/
theorem test_dcr_m : steps (((at_ 0x0200 [0x35]).setPair .hl 0x0040).poke 0x0040 1)
    (fun t => t.peek 0x0040 == 0 && t.flags == fl true false true false true) := by decide
/-- V-AR17. -/
theorem test_inx_carries : steps (((at_ 0x0200 [0x23]).setPair .hl 0x00FF).setFlags (fl false true false true true))
    (fun t => t.pair .hl == 0x0100 && t.flags == fl false true false true true) := by decide
/-- V-AR18. -/
theorem test_inx_wraps : steps (((at_ 0x0200 [0x03]).setPair .bc 0xFFFF).setFlags (fl false true false true true))
    (fun t => t.pair .bc == 0 && t.flags == fl false true false true true) := by decide
/-- The two tables of DCR_AC hold what R172 and D9 say. -/
theorem test_dcrAc_tables : ∀ old : Byte, Config.dcrAcCarry.getLsbD old.toNat = decide (old &&& 0x0F ≠ 0) ∧
    Config.dcrAcBorrow.getLsbD old.toNat = decide (old &&& 0x0F = 0) := by decide
/-- V-AR8 under the borrow convention (the line after 95 §2.4): AC is complemented. -/
theorem test_dcr_borrow :
    steps (withCy { at_ 0x0200 [0x3D] with params := ⟨[], true, Config.dcrAcBorrow⟩ })
      (fun t => t.reg .a == 0xFF && t.flags == fl false true true true true) := by decide

/-! ## Control transfer (95 §2.5) -/

/-- V-CT3. -/
theorem test_jmp_wraps : steps (at_ 0xFFFE [0xC3, 0x34, 0x12]) (fun t => t.pc == 0x1234) := by decide
/-- V-CT5. -/
theorem test_call_wraps : steps (at_ 0xFFFD [0xCD, 0x00, 0x80])
    (fun t => t.sp == 0x00FE && t.peek 0x00FE == 0 && t.peek 0x00FF == 0 && t.pc == 0x8000) := by decide
/-- V-CT7. -/
theorem test_call_over_itself : steps ((at_ 0x0200 [0xCD, 0x00, 0x80]).setSp 0x0203)
    (fun t => t.sp == 0x0201 && t.peek 0x0201 == 0x03 && t.peek 0x0202 == 0x02 && t.pc == 0x8000) := by decide
/-- V-CT8. -/
theorem test_ret : steps (((at_ 0x0200 [0xC9]).setSp 0x00FE).poke 0x00FE 0x09) (fun t => t.pc == 0x0009 && t.sp == 0x0100) := by
  decide
/-- V-CT9. -/
theorem test_ret_wraps : steps ((((at_ 0x0200 [0xC9]).setSp 0xFFFF).poke 0xFFFF 0x34).poke 0 0x12)
    (fun t => t.pc == 0x1234 && t.sp == 1) := by decide
/-- V-CT10. -/
theorem test_hlt : steps ((at_ 0 [0x76, 0x3E, 0x01]).setReg .a 0x55)
    (fun t => t.run == .halted && t.pc == 1 && t.reg .a == 0x55) := by decide
/-- V-CT11. -/
theorem test_hlt_wraps : steps (at_ 0xFFFF [0x76]) (fun t => t.run == .halted && t.pc == 0) := by decide

/-! ## InvalidOpcode (95 §2.6) and the halted machine -/

/-- V-IO1 to V-IO6. -/
theorem test_invalid_opcodes : ∀ op ∈ [0x00, 0x31, 0xF5, 0x80, 0xC2, 0x0B], faultsAt (at_ 0x0200 [op]) 0x0200 := by decide
/-- V-IO7. -/
theorem test_invalid_duplicates : ∀ op ∈ [0xCB, 0xD9, 0x08], faultsAt (at_ 0x0200 [op]) 0x0200 := by decide
/-- V-MV9: a form with M where M_FORMS is false. -/
theorem test_invalid_without_mForms :
    faultsAt { at_ 0x0200 [0x46] with params := ⟨[], false, Config.dcrAcCarry⟩ } 0x0200 := by decide
/-- R138: a halted machine has no step. -/
theorem test_halted_has_no_step : step ((at_ 0x0200 [0x3E, 0x01]).setRun .halted) = .refused .halted := rfl
/-- Program P5: the image runs out after one step; the state exposed is the one before the faulting step. -/
theorem test_run_off_image : (runFor 2 (at_ 0 [0x3E, 0x01])).1 = .faulted (.invalidOpcode 2) ∧
    (runFor 2 (at_ 0 [0x3E, 0x01])).2.pc = 2 ∧ (runFor 2 (at_ 0 [0x3E, 0x01])).2.run = .running := by decide

/-! ## Memory and hooks (95 §2.9) -/

/-- V-ME1, V-ME3. -/
theorem test_read_word : (((at_ 0 []).poke 0x1000 0x34).poke 0x1001 0x12 |>.readWord 0x1000).1 = 0x1234 ∧
    (((at_ 0 []).poke 0xFFFF 0xCD).poke 0 0xAB |>.readWord 0xFFFF).1 = 0xABCD := by decide
/-- V-ME2, V-ME4. -/
theorem test_write_word : ((at_ 0 []).writeWord 0x1000 0xBEEF).mem = [(0x1000, 0xEF), (0x1001, 0xBE)] ∧
    ((at_ 0 []).writeWord 0xFFFF 0x1234).mem = [(0, 0x12), (0xFFFF, 0x34)] := by decide
/-- V-ME6. -/
theorem test_hooked_write : ((hooked (at_ 0 [])).writeByte 0x2000 0x55).peek 0x2000 = 0 ∧
    ((hooked (at_ 0 [])).writeByte 0x2000 0x55).hookLog = [.write 0x2000 0x55] := by decide
/-- V-ME7: a read gives the next draw and is recorded. -/
theorem test_hooked_read : (hooked (at_ 0 [])).readByte 0x2000 =
    (Config.hookByte 0, { hooked (at_ 0 []) with draws := 1, hookLog := [.read 0x2000 (Config.hookByte 0)] }) := by rfl
/-- R66: a word read over the low end of a hook takes its low byte from memory and its high byte from the hook. -/
theorem test_hooked_half : ((hooked (at_ 0 [])).poke 0x1FFF 0x34 |>.readWord 0x1FFF).1 = joinBytes (Config.hookByte 0) 0x34 := by
  rfl
/-- Writing the value of an unlisted cell takes the cell out of the list (the canonical form). -/
theorem test_write_default : ((at_ 0 [0x55]).writeByte 0 0).mem = [] := by decide

/-! ## The launch (R230, D12, D15) -/

/-- A launch with an image and hooks, everything else zero. -/
def launch (image : List Byte) (hooks : List Hook) : Launch :=
  ⟨State.reset.regs, 0xBEEF, State.reset.flags, [(2, 0x76), (0x9000, 5)], image, hooks, true, Config.dcrAcCarry⟩

/-- The image lies over MEM_INIT, which shows above it (P5's second outcome). -/
theorem test_launch : ((launch [0x3E, 0x01] [⟨0x2000, 0x20FF, 0⟩]).state.toOption.map
    (fun s => (s.mem, s.pc, s.sp, s.run))) = some ([(0, 0x3E), (1, 0x01), (2, 0x76), (0x9000, 5)], 0, 0xBEEF, .running) := by decide
theorem test_launch_overlap : (launch [] [⟨0x2000, 0x20FF, 0⟩, ⟨0x20FF, 0x2100, 1⟩]).state = .error .hookOverlap := by rfl
theorem test_launch_range : (launch [] [⟨0x2000, 0x1FFF, 0⟩]).state = .error .hookRange := by rfl
theorem test_launch_image_hooked : (launch [0, 0] [⟨1, 1, 0⟩]).state = .error .imageHooked := by rfl

/-! ## The encoder (95 §2.7) -/

/-- The image of a source, or the line and class of its error. -/
def asm (src : String) : Sum (List Byte) (Nat × AsmErrorKind) :=
  match assemble true src.toList with
  | .ok bs => .inl bs
  | .error e => .inr (e.line, e.kind)

theorem test_as1 : asm "MVI a,1\nMVI b,2" = .inl [0x3E, 0x01, 0x06, 0x02] := by decide
theorem test_as2 : asm "mvi A,0xFFh\nMvi m,255\nMVI l,0ffh" = .inl [0x3E, 0xFF, 0x36, 0xFF, 0x2E, 0xFF] := by decide
theorem test_as3 : asm "jump: JMP jump_to\nHLT\njump_to:\nHLT" = .inl [0xC3, 0x04, 0x00, 0x76, 0x76] := by decide
theorem test_as4 : asm "; only a comment\n\n  HLT ; stop" = .inl [0x76] := by decide
theorem test_as5 : asm "LXI hl,0x9012h\nLXI bc,4660\nLXI de,1234h" =
    .inl [0x21, 0x12, 0x90, 0x01, 0x34, 0x12, 0x11, 0x34, 0x12] := by decide
theorem test_as6 : asm "MOV a,b\nMOV m,a\nMOV h,m" = .inl [0x78, 0x77, 0x66] := by decide
theorem test_as7 : asm "PUSH bc\nPUSH de\nPUSH hl\nPOP hl\nPOP de\nPOP bc" = .inl [0xC5, 0xD5, 0xE5, 0xE1, 0xD1, 0xC1] := by decide
theorem test_as8 : asm "INR m\nDCR a\nINX de\nRET" = .inl [0x34, 0x3D, 0x13, 0xC9] := by decide
theorem test_as9 : asm "CALL 0x0007h\nLDA 8888h\nSTA 0x8888" =
    .inl [0xCD, 0x07, 0x00, 0x3A, 0x88, 0x88, 0x32, 0x88, 0x88] := by decide
theorem test_as10 : asm "MVI a,256" = .inr (1, .literalRange) := by decide
theorem test_as11 : asm "MVI a,255" = .inl [0x3E, 0xFF] := by decide
theorem test_as12 : asm "JMP nowhere" = .inr (1, .undefinedLabel) := by decide
theorem test_as13 : asm "x: HLT\nx: HLT" = .inr (2, .duplicateLabel) := by decide
theorem test_as14 : asm "NOP" = .inr (1, .unknownMnemonic) := by decide
theorem test_as15 : asm "MOV m,m" = .inr (1, .operandShape) := by decide
theorem test_as16 : asm "LXI b,1" = .inr (1, .operandShape) := by decide
theorem test_as17 : ∀ src ∈ ["PUSH a", "LXI sp,1", "MVI a", "HLT 1"], asm src = .inr (1, .operandShape) := by decide
theorem test_as18 : asm "LXI hl,65536" = .inr (1, .literalRange) ∧ asm "LXI hl,65535" = .inl [0x21, 0xFF, 0xFF] := by decide
theorem test_as19 : asm "t: MVI a,t" = .inr (1, .operandShape) := by decide
theorem test_as20 : asm "" = .inl [] := by decide
theorem test_as21 : asm "a: HLT" = .inr (1, .labelName) := by decide

/-! ## Witnesses: concrete states and operands that meet the hypotheses of each statement that has some, clause by clause, at
boundary values -/

/-- The next state of a step, where there is one. -/
def stepTo (s : State) : Option State :=
  match step s with
  | .next t => some t
  | .fault _ | .refused _ => none

theorem stepTo_some {s t : State} (h : stepTo s = some t) : step s = .next t := by
  unfold stepTo at h
  split at h <;> simp_all

theorem steps_next {s : State} (h : steps s (fun _ => true) = true) : ∃ t, step s = .next t := by
  unfold steps at h
  split at h
  · exact ⟨_, by assumption⟩
  · simp at h
  · simp at h

/-- An LXI whose bytes wrap across the top of memory. -/
def sLxi : State := at_ 0xFFFE [0x21, 0xCD, 0xAB]
/-- A PUSH whose word wraps across the top of memory. -/
def sPush : State := ((at_ 0x0200 [0xE5]).setPair .hl 0xBEEF).setSp 1
/-- An STA to the first address under the hook. -/
def sStaHooked : State := hooked (at_ 0x0200 [0x32, 0x00, 0x20])
/-- An INR M on the last address under the hook. -/
def sInrHooked : State := hooked ((at_ 0x0200 [0x34]).setPair .hl 0x20FF)
/-- A CALL to address 0x8000 at the top of memory. -/
def sCall : State := at_ 0xFFFD [0xCD, 0x00, 0x80]
/-- An HLT at the top of memory. -/
def sHlt : State := at_ 0xFFFF [0x76]
/-- A byte without an entry at the top of memory. -/
def sBad : State := at_ 0xFFFF [0xFF]

theorem test_witness_DecodeOfEncode : Instr.wellFormed false (.lxi .hl 0xFFFF) = true ∧ Instr.wellFormed true (.mviM 0) = true := by
  decide
theorem test_witness_EncodeOfDecode : decode false [0xC3, 0xFF, 0xFF, 0x76] = .ok (.jmp 0xFFFF, [0x76]) ∧
    decode true [0x35] = .ok (.dcrM, []) := ⟨rfl, rfl⟩
theorem test_witness_RoundTripInMemory :
    (Instr.wellFormed sLxi.params.mForms (.lxi .hl 0xABCD) = true ∧ sLxi.Unhooked 0xFFFE 3 ∧
      sLxi.bytesAt 0xFFFE 3 = encode (.lxi .hl 0xABCD)) ∧
    (sLxi.decodeAt 0xFFFE = some (.lxi .hl 0xABCD, sLxi) ∧ sLxi.Unhooked 0xFFFE 3) ∧
    (exec (.inrR .a) sLxi = .next ((sLxi.setReg .a 1).setFlags ⟨false, false, false, false, false⟩) ∧
      FlagName.cy ∉ declaredFlags (Instr.inrR .a).form.mnemonic) :=
  ⟨⟨rfl, fun _ _ => rfl, by decide⟩, ⟨by decide, fun _ _ => rfl⟩, ⟨rfl, by decide⟩⟩
theorem test_witness_TableIsInjective : lookup true 0x77 = some (.movMR .a) ∧ lookup true 0x01 = some (.lxi .bc) ∧
    lookup false 0x76 = some .hlt ∧ lookup false 0x77 = none := by decide
theorem test_witness_StepRunsDecodedInstruction :
    (sLxi.run = .running ∧ sLxi.decodeAt sLxi.pc = some (.lxi .hl 0xABCD, sLxi)) ∧
    (sBad.run = .running ∧ sBad.decodeAt sBad.pc = none) := by decide
theorem test_witness_DecodeReadsOpcodeThenOperands :
    lookup sBad.params.mForms (sBad.valueAt sBad.draws 0xFFFF) = none ∧
    (lookup sHlt.params.mForms (sHlt.valueAt sHlt.draws 0xFFFF) = some .hlt ∧ Form.hlt.format = .f1) ∧
    (lookup true ((at_ 0xFFFF [0x3E, 0x99]).valueAt 0 0xFFFF) = some (.mviR .a) ∧ (Form.mviR .a).format = .f2) ∧
    (lookup true (sLxi.valueAt 0 0xFFFE) = some (.lxi .hl) ∧ (Form.lxi .hl).format = .f3) := by decide
theorem test_witness_StepHasTwoOutcomes : sLxi.run = .running ∧ (∃ t, step sLxi = .next t) ∧ sLxi.params.hooks = [] :=
  ⟨rfl, steps_next (by decide), rfl⟩
theorem test_witness_FaultExactlyOnByteWithoutEntry : step sBad = .fault (.invalidOpcode 0xFFFF) ∧ sBad.run = .running ∧
    lookup sBad.params.mForms (sBad.valueAt sBad.draws sBad.pc) = none := ⟨rfl, rfl, by decide⟩
theorem test_witness_HaltedOnlyByHltAndTerminal : (∃ t, step sHlt = .next t) ∧ (∃ t, step sLxi = .next t) ∧
    (sHlt.setRun .halted).run = .halted := ⟨steps_next (by decide), steps_next (by decide), rfl⟩
theorem test_witness_PcAdvancesByLength : (∃ t, step sLxi = .next t) ∧
    sLxi.decodeAt sLxi.pc = some (.lxi .hl 0xABCD, sLxi) ∧ (Instr.lxi .hl 0xABCD).form.mnemonic = .lxi ∧
    Mnemonic.lxi ≠ .jmp ∧ Mnemonic.lxi ≠ .call ∧ Mnemonic.lxi ≠ .ret :=
  ⟨steps_next (by decide), by decide, rfl, by decide, by decide, by decide⟩
theorem test_witness_AccessesInOrder : (∃ t, step sInrHooked = .next t) ∧ sInrHooked.hooked (sInrHooked.pair .hl) = true :=
  ⟨⟨_, rfl⟩, by decide⟩
theorem test_witness_OnlyStoresChangeMemory :
    (∃ t, step sPush = .next t) ∧ sPush.decodeAt sPush.pc = some (.push .hl, sPush) ∧
    Access.write 1 ∉ dataAccesses (sPush.pair .hl) sPush.sp (.push .hl) ∧
    (∃ t, step sStaHooked = .next t) ∧ sStaHooked.decodeAt sStaHooked.pc = some (.sta 0x2000, sStaHooked) ∧
    sStaHooked.hooked 0x2000 = true :=
  ⟨steps_next (by decide), by decide, by decide, steps_next (by decide), by decide, by decide⟩
theorem test_witness_StepKeepsInvariant : sStaHooked.Inv ∧ (∃ t, step sStaHooked = .next t) ∧ sPush.Inv ∧
    (∃ t, step sPush = .next t) := ⟨by decide, steps_next (by decide), by decide, steps_next (by decide)⟩
theorem test_witness_LaunchedStateMeetsInvariant :
    ∃ s, (launch [0x76] [⟨1, 0x20FF, 0⟩, ⟨0x2100, 0xFFFF, 1⟩]).state = .ok s := ⟨_, rfl⟩
theorem test_witness_CarryAndParametersNeverChange : ∃ t, step (withCy sPush) = .next t := steps_next (by decide)
theorem test_witness_ByteAccess : (hooked sLxi).hooked 0x1FFF = false ∧ (hooked sLxi).hooked 0x2000 = true ∧
    (hooked sLxi).hooked 0x20FF = true ∧ (hooked sLxi).hooked 0x2100 = false := by decide
theorem test_witness_WordAccess : (hooked sLxi).hooked 0xFFFF = false ∧ (hooked sLxi).hooked 0 = false := by decide
theorem test_witness_NoHooksMeansPlainMemory : sLxi.params.hooks = [] := rfl
/-- The hypothesis inside HasEncoding, for a form that always exists and for the five with M (MviMemory, MovFromMemory,
MovToMemory, IncrementMemory, DecrementMemory and the other result statements). -/
theorem test_witness_HasEncoding : Instr.wellFormed true (.mviM 0xFF) = true ∧ Instr.wellFormed true (.movRM .h) = true ∧
    Instr.wellFormed true (.movMR .l) = true ∧ Instr.wellFormed true .inrM = true ∧ Instr.wellFormed true .dcrM = true ∧
    Instr.wellFormed false (.movRR .a .a) = true ∧ Instr.wellFormed false .ret = true := by decide
theorem test_witness_PushesThenPopsRestore :
    (2 * [Pair.bc, .de, .hl].length ≤ 65536 ∧
      ∀ j, 1 ≤ j → j ≤ 2 * [Pair.bc, .de, .hl].length → sPush.hooked (sPush.sp - BitVec.ofNat 16 j) = false) ∧
    ((hooked (sPush.setSp 0x2102)).hooked 0x2101 = false ∧ (hooked (sPush.setSp 0x2102)).hooked 0x2100 = false) :=
  ⟨⟨by decide, fun _ _ _ => rfl⟩, by decide⟩
theorem test_witness_DecrementRegister : sLxi.params.dcrAc = Config.dcrAcCarry ∧
    ({ sLxi with params := ⟨[], true, Config.dcrAcBorrow⟩ } : State).params.dcrAc = Config.dcrAcBorrow := ⟨rfl, rfl⟩
theorem test_witness_OnlyIncDecWriteFlags : (∃ t, exec .inrM sLxi = .next t) ∧ (∃ t, exec (.dcrR .a) sLxi = .next t) ∧
    (∃ t, exec (.inx .hl) sLxi = .next t) ∧ (Instr.inx .hl).form.mnemonic ≠ .inr ∧ (Instr.inx .hl).form.mnemonic ≠ .dcr :=
  ⟨⟨_, rfl⟩, ⟨_, rfl⟩, ⟨_, rfl⟩, by decide, by decide⟩
theorem test_witness_FlagsInfluenceNothing : (∃ t, step (withCy sCall) = .next t) ∧
    step (withCy sBad) = .fault (.invalidOpcode 0xFFFF) := ⟨steps_next (by decide), rfl⟩
theorem test_witness_CallPushesReturnAddress : sCall.run = .running ∧ sCall.decodeAt sCall.pc = some (.call 0x8000, sCall) ∧
    sCall.hooked (sCall.sp - 2) = false ∧ sCall.hooked (sCall.sp - 1) = false := by decide
theorem test_witness_ReturnPopsPc :
    sPush.hooked (sPush.sp - 1) = false ∧ sPush.hooked (sPush.sp - 2) = false ∧
      exec (.call 0x8000) sPush = .next ((sPush.pushWord sPush.pc).setPc 0x8000) := ⟨rfl, rfl, rfl⟩
theorem test_witness_HaltStops : sHlt.run = .running ∧ sHlt.decodeAt sHlt.pc = some (.hlt, sHlt) := by decide
theorem test_witness_StackPointerMoves : (∃ t, exec (.push .bc) sPush = .next t) ∧ (∃ t, exec (.call 0) sPush = .next t) ∧
    (∃ t, exec (.pop .bc) sPush = .next t) ∧ (∃ t, exec .ret sPush = .next t) ∧ (∃ t, exec .hlt sPush = .next t) :=
  ⟨⟨_, rfl⟩, ⟨_, rfl⟩, ⟨_, rfl⟩, ⟨_, rfl⟩, ⟨_, rfl⟩⟩
/-- Two different states that agree off the hooks, for a step and for a fault. -/
theorem test_witness_HookedCellsAreNeverUsed :
    (AgreeOffHooks sStaHooked (sStaHooked.poke 0x2000 1) ∧ sStaHooked ≠ sStaHooked.poke 0x2000 1 ∧
      (∃ t, step sStaHooked = .next t) ∧ sStaHooked.hooked 0x2000 = true) ∧
    (AgreeOffHooks (hooked sBad) ((hooked sBad).poke 0x20FF 1) ∧ step (hooked sBad) = .fault (.invalidOpcode 0xFFFF)) := by
  refine ⟨⟨⟨rfl, rfl, rfl, rfl, rfl, rfl, rfl, rfl, fun a h => ?_⟩, by decide, steps_next (by decide), by decide⟩,
    ⟨rfl, rfl, rfl, rfl, rfl, rfl, rfl, rfl, fun a h => ?_⟩, rfl⟩
  all_goals
    rw [State.peek_poke, if_neg]
    rintro rfl
    exact absurd h (by decide)
theorem test_witness_LaunchCreatesState :
    hooksOk (launch [0x3E, 0x76] [⟨2, 0x20FF, 0⟩]).hooks ∧ (launch [0x3E, 0x76] [⟨2, 0x20FF, 0⟩]).image.length ≤ 65536 ∧
      ∀ h ∈ (launch [0x3E, 0x76] [⟨2, 0x20FF, 0⟩]).hooks, (launch [0x3E, 0x76] [⟨2, 0x20FF, 0⟩]).image.length ≤ h.lo.toNat := by
  decide
theorem test_witness_LaunchRefusedExactly :
    (∃ s, (launch [0x3E, 0x76] [⟨2, 0x20FF, 0⟩]).state = .ok s) ∧
      ¬hooksOk (launch [] [⟨1, 2, 0⟩, ⟨2, 3, 0⟩]).hooks ∧
      ¬∀ h ∈ (launch [0x3E, 0x76] [⟨1, 0x20FF, 0⟩]).hooks, (launch [0x3E, 0x76] [⟨1, 0x20FF, 0⟩]).image.length ≤ h.lo.toNat :=
  ⟨⟨_, rfl⟩, by decide, by decide⟩
theorem test_witness_EveryMemoryCanBeInitial : Memory.wf [(0, 1), (65535, 255)] ∧ Memory.wf [] := by decide
theorem test_witness_RunEndsInThreeWays : (runFor 1 sHlt).1 = .halted ∧ (runFor 1 sBad).1 = .faulted (.invalidOpcode 0xFFFF) ∧
    (runFor 1 sLxi).1 = .stopped := by decide
theorem test_witness_StopChangesNothing : ∃ t, runFor 1 sLxi = (.stopped, t) ∧ runFor 0 sLxi = (.stopped, sLxi) :=
  ⟨_, rfl, rfl⟩
theorem test_witness_ImageIsEncodedInstructions :
    assemble true "t: LXI hl,t
INR m".toList = .ok [0x21, 0x00, 0x00, 0x34] := by rfl
theorem test_witness_LabelIsImageOffset :
    pass1 true ([(1, "LXI hl,t".toList)] ++ (2, "t: HLT".toList) :: []) 0 [] = .ok [(['t'], 3)] ∧
    splitLabel (codeOf "t: HLT".toList) = .ok (some ['t'], "HLT".toList) ∧
    pass2 true [(['t'], 3)] [(1, "LXI hl,t".toList)] = .ok [.lxi .hl 3] := ⟨by rfl, by rfl, by rfl⟩
theorem test_witness_PassTwoReportsLateErrorsOnly :
    pass1 true [(1, "JMP nowhere".toList)] 0 [] = .ok [] ∧
      pass2 true [] [(1, "JMP nowhere".toList)] = .error ⟨1, .undefinedLabel⟩ ∧
    pass1 true [(1, "MVI a,256".toList)] 0 [] = .ok [] ∧
      pass2 true [] [(1, "MVI a,256".toList)] = .error ⟨1, .literalRange⟩ := ⟨by rfl, by rfl, by rfl, by rfl⟩
theorem test_witness_ErrorNamesSourceLine : assemble true "HLT
NOP".toList = .error ⟨2, .unknownMnemonic⟩ := by rfl
theorem test_witness_AssembleThenDecode : Instr.wellFormed false (.call 0xFFFF) = true ∧ Instr.wellFormed true .dcrM = true := by
  decide

end Sys2Proof.Tests
end

section
/-! SUPPORT. What the action of each instruction gives, one equation for each constructor, and what each action does to the
fields of the state that few of them write. -/

namespace Sys2Proof.Machine

/-! ## The action of each instruction (R136) -/

section
variable (s : State)

@[simp] theorem exec_movRR (dst src : Reg) : exec (.movRR dst src) s = .next (s.setReg dst (s.reg src)) := rfl
@[simp] theorem exec_movRM (dst : Reg) :
    exec (.movRM dst) s = .next ((s.readByte s.addrM).2.setReg dst (s.readByte s.addrM).1) := rfl
@[simp] theorem exec_movMR (src : Reg) : exec (.movMR src) s = .next (s.writeByte s.addrM (s.reg src)) := rfl
@[simp] theorem exec_mviR (r : Reg) (d8 : Byte) : exec (.mviR r d8) s = .next (s.setReg r d8) := rfl
@[simp] theorem exec_mviM (d8 : Byte) : exec (.mviM d8) s = .next (s.writeByte s.addrM d8) := rfl
@[simp] theorem exec_lxi (p : Pair) (d16 : Word) : exec (.lxi p d16) s = .next (s.setPair p d16) := rfl
@[simp] theorem exec_lda (a16 : Word) :
    exec (.lda a16) s = .next ((s.readByte a16).2.setReg .a (s.readByte a16).1) := rfl
@[simp] theorem exec_sta (a16 : Word) : exec (.sta a16) s = .next (s.writeByte a16 (s.reg .a)) := rfl
@[simp] theorem exec_push (p : Pair) : exec (.push p) s = .next (s.pushWord (s.pair p)) := rfl
@[simp] theorem exec_pop (p : Pair) : exec (.pop p) s = .next (s.popWord.2.setPair p s.popWord.1) := rfl
@[simp] theorem exec_inrR (r : Reg) :
    exec (.inrR r) s = .next ((s.setReg r (s.reg r + 1)).setFlags (s.flags.afterInc (s.reg r))) := rfl
@[simp] theorem exec_inrM :
    exec .inrM s = .next (((s.readByte s.addrM).2.writeByte s.addrM ((s.readByte s.addrM).1 + 1)).setFlags
      (s.flags.afterInc (s.readByte s.addrM).1)) := rfl
@[simp] theorem exec_dcrR (r : Reg) :
    exec (.dcrR r) s = .next ((s.setReg r (s.reg r - 1)).setFlags (s.flags.afterDec s.params (s.reg r))) := rfl
@[simp] theorem exec_dcrM :
    exec .dcrM s = .next (((s.readByte s.addrM).2.writeByte s.addrM ((s.readByte s.addrM).1 - 1)).setFlags
      (s.flags.afterDec s.params (s.readByte s.addrM).1)) := rfl
@[simp] theorem exec_inx (p : Pair) : exec (.inx p) s = .next (s.setPair p (s.pair p + 1)) := rfl
@[simp] theorem exec_jmp (a16 : Word) : exec (.jmp a16) s = .next (s.setPc a16) := rfl
@[simp] theorem exec_call (a16 : Word) : exec (.call a16) s = .next ((s.pushWord s.pc).setPc a16) := rfl
@[simp] theorem exec_ret : exec .ret s = .next (s.popWord.2.setPc s.popWord.1) := rfl
@[simp] theorem exec_hlt : exec .hlt s = .next (s.setRun .halted) := rfl

end

/-! ## Flags, run status, SP and parameters after an action -/

/-- The flags an action leaves: new ones from INR and DCR, the old ones from every other instruction (R30, R161). -/
def Instr.flagsAfter (i : Instr) (s : State) : Flags :=
  match i with
  | .inrR r => s.flags.afterInc (s.reg r)
  | .inrM => s.flags.afterInc (s.readByte s.addrM).1
  | .dcrR r => s.flags.afterDec s.params (s.reg r)
  | .dcrM => s.flags.afterDec s.params (s.readByte s.addrM).1
  | .movRR _ _ | .movRM _ | .movMR _ | .mviR _ _ | .mviM _ | .lxi _ _ | .lda _ | .sta _ | .push _ | .pop _ | .inx _
  | .jmp _ | .call _ | .ret | .hlt => s.flags

section
variable {i : Instr} {s t : State}

theorem exec_flags (h : exec i s = .next t) : t.flags = Instr.flagsAfter i s := by
  cases i <;> simp at h <;> simp [← h, Instr.flagsAfter]

/-- HLT is the one action that writes the run status (R183). -/
theorem exec_run (h : exec i s = .next t) : t.run = if i = .hlt then .halted else s.run := by
  cases i <;> simp at h <;> simp [← h]

/-- No action writes a parameter (R6). -/
theorem exec_params (h : exec i s = .next t) : t.params = s.params := by
  cases i <;> simp at h <;> simp [← h]

/-- No flag computation of the CORE writes CY (R33). -/
@[simp] theorem Instr.flagsAfter_cy (i : Instr) (s : State) : (Instr.flagsAfter i s).cy = s.flags.cy := by
  cases i <;> rfl

end

/-! ## A step as the action on the fetched state -/

section
variable (s : State) (fmt : Format) (a : Word)

@[simp] theorem State.afterFetch_flags : (s.afterFetch fmt a).flags = s.flags := rfl
@[simp] theorem State.afterFetch_run : (s.afterFetch fmt a).run = s.run := rfl
@[simp] theorem State.afterFetch_params : (s.afterFetch fmt a).params = s.params := rfl

end

/-- What stands behind a next state: an instruction decoded at PC, and its action on the state after the fetch (R131). -/
theorem step_next_inv {s t : State} (h : step s = .next t) :
    s.run = .running ∧ ∃ i, s.decodeAt s.pc = some (i, s.afterFetch i.form.format s.pc) ∧
      exec i ((s.afterFetch i.form.format s.pc).setPc (s.pc + BitVec.ofNat 16 i.length)) = .next t := by
  obtain ⟨hrun, i, u, hdec, hexec⟩ := step_next_iff.1 h
  obtain ⟨-, -, rfl⟩ := State.decodeAt_some hdec
  exact ⟨hrun, i, hdec, hexec⟩

/-- What every step keeps, the state that any run exposes has too. -/
theorem runFor_keeps {P : State → Prop} (hstep : ∀ s t, P s → step s = .next t → P t) :
    ∀ n s, P s → P (runFor n s).2 := by
  intro n
  induction n with
  | zero =>
    intro s hs
    unfold runFor
    split <;> exact hs
  | succ n ih =>
    intro s hs
    unfold runFor
    split
    · next hnext => exact ih _ (hstep _ _ hs hnext)
    · exact hs
    · exact hs

end Sys2Proof.Machine
end

section
/-! SUPPORT. A write of all flags commutes with every other operation but a second write of them, so an action and a step on a
state with other flags are the action and the step with other flags in the result (R32). -/

namespace Sys2Proof.Machine

section
variable (s : State) (f : Flags)

@[simp] theorem State.setFlags_setFlags (g : Flags) : (s.setFlags f).setFlags g = s.setFlags g := rfl
@[simp] theorem State.setFlags_setReg (r : Reg) (v : Byte) :
    (s.setFlags f).setReg r v = (s.setReg r v).setFlags f := rfl
@[simp] theorem State.setFlags_setPair (p : Pair) (v : Word) :
    (s.setFlags f).setPair p v = (s.setPair p v).setFlags f := rfl
@[simp] theorem State.setFlags_setSp (v : Word) : (s.setFlags f).setSp v = (s.setSp v).setFlags f := rfl
@[simp] theorem State.setFlags_setPc (v : Word) : (s.setFlags f).setPc v = (s.setPc v).setFlags f := rfl
@[simp] theorem State.setFlags_setRun (r : RunStatus) : (s.setFlags f).setRun r = (s.setRun r).setFlags f := rfl
@[simp] theorem State.setFlags_afterFetch (fmt : Format) (a : Word) :
    (s.setFlags f).afterFetch fmt a = (s.afterFetch fmt a).setFlags f := rfl

@[simp] theorem State.setFlags_readByte (a : Word) :
    (s.setFlags f).readByte a = ((s.readByte a).1, (s.readByte a).2.setFlags f) := by
  cases h : s.hooked a
  · simp [State.readByte_of_unhooked, h]
  · simp [State.readByte_of_hooked, h]; rfl

@[simp] theorem State.setFlags_writeByte (a : Word) (v : Byte) :
    (s.setFlags f).writeByte a v = (s.writeByte a v).setFlags f := by
  cases h : s.hooked a
  · simp [State.writeByte_of_unhooked, h]; rfl
  · simp [State.writeByte_of_hooked, h]; rfl

@[simp] theorem State.setFlags_pushWord (v : Word) : (s.setFlags f).pushWord v = (s.pushWord v).setFlags f := by
  simp [State.pushWord, State.writeWord]

@[simp] theorem State.setFlags_popWord : (s.setFlags f).popWord = (s.popWord.1, s.popWord.2.setFlags f) := by
  simp [State.popWord, State.readWord]

/-- Decoding reads no flag. -/
theorem State.decodeAt_setFlags (a : Word) :
    (s.setFlags f).decodeAt a = (s.decodeAt a).map (fun r => (r.1, r.2.setFlags f)) := by
  rw [State.decodeAt_eq, State.decodeAt_eq, Option.map_map]
  rfl

end

/-- No action reads a flag (R32): with other flags before it, only the flags after it differ. -/
theorem exec_setFlags {i : Instr} {s t : State} (f : Flags) (h : exec i s = .next t) :
    exec i (s.setFlags f) = .next (t.setFlags (Instr.flagsAfter i (s.setFlags f))) := by
  cases i <;> simp at h <;> simp [← h, Instr.flagsAfter]

end Sys2Proof.Machine
end

section
/-! SUPPORT. Building a memory from its own cells: a cell above all others is stored at the end. -/

namespace Sys2Proof.Machine

theorem Memory.clear_of_not_mem {m : Memory} {a : Nat} (h : ∀ x ∈ m, x.1 ≠ a) : Memory.clear m a = m := by
  simpa [Memory.clear] using h

theorem Memory.insertCell_of_lt {c : Host.Cell} {m : Memory} (h : ∀ x ∈ m, x.1 < c.1) :
    Memory.insertCell c m = m ++ [c] := by
  induction m with
  | nil => rfl
  | cons x m ih =>
    have hx := h x (by simp)
    have ih := ih (fun y hy => h y (by simp [hy]))
    simp [Memory.insertCell, ih, hx.le]

/-- A store above every listed address, of a byte that is listed, adds its cell at the end. -/
theorem Memory.set_of_lt {m : Memory} {a : Nat} {v : Byte} (hm : ∀ x ∈ m, x.1 < a) (hv : v ≠ Config.memDefault) :
    Memory.set m a v = m ++ [(a, v)] := by
  rw [Memory.set, if_neg hv, Memory.clear_of_not_mem (fun x hx => (hm x hx).ne), Memory.insertCell_of_lt hm]

/-- Storing the cells of the upper part of a canonical memory one after another into its lower part gives the whole. -/
theorem Memory.foldl_set_eq_append (cells : List Host.Cell) :
    ∀ m : Memory, Memory.wf (m ++ cells) →
      cells.foldl (fun m x => Memory.set m (x.1 % Config.memSize) x.2) m = m ++ cells := by
  induction cells with
  | nil => simp
  | cons x cells ih =>
    intro m h
    obtain ⟨hsize, hbyte⟩ := h.2 x (by simp)
    have hlt : ∀ y ∈ m, y.1 < x.1 := fun y hy => (List.pairwise_append.1 h.1).2.2 y hy x (by simp)
    rw [List.foldl_cons, Nat.mod_eq_of_lt hsize, Memory.set_of_lt hlt hbyte, ih _ (by simpa using h)]
    simp

end Sys2Proof.Machine
end

section
/-! RESULTS. The statements about the state: the flags, the run status, the parameters, SP, the pairs, the memory and reset. -/

namespace Sys2Proof.Machine

/-- A pair of a state is its two registers joined (R22). -/
theorem State.pair_eq (s : State) (p : Pair) : s.pair p = joinBytes (s.reg (pairHi p)) (s.reg (pairLo p)) := rfl

/-- Settles O42: the fetch and every action commute with a write of all flags. -/
theorem flagsInfluenceNothing : Obligations.FlagsInfluenceNothing := by
  refine fun s f => ⟨fun t h => ?_, fun e h => ?_⟩
  · obtain ⟨hrun, i, u, hdec, hexec⟩ := step_next_iff.1 h
    refine ⟨_, step_next_iff.2 ⟨hrun, i, u.setFlags f, ?_, exec_setFlags f hexec⟩⟩
    simp [State.decodeAt_setFlags, hdec]
  · obtain ⟨hrun, hdec, he⟩ := step_fault_iff.1 h
    refine step_fault_iff.2 ⟨hrun, ?_, he⟩
    simp [State.decodeAt_setFlags, hdec]

/-- Settles O13: of all actions HLT alone writes the run status, and a halted machine's step is refused. -/
theorem haltedOnlyByHltAndTerminal : Obligations.HaltedOnlyByHltAndTerminal := by
  refine ⟨fun s t h => ?_, fun s hs => ?_⟩
  · obtain ⟨hrun, i, hdec, hexec⟩ := step_next_inv h
    have ht : t.run = .halted ↔ i = .hlt := by simp [exec_run hexec, hrun]
    simp [ht, hdec]
  · have hstep : step s = .refused .halted := step_refused_iff.2 ⟨hs, rfl⟩
    exact ⟨hstep, fun n => by cases n <;> simp [runFor, hs, hstep]⟩

/-- Settles O20: no fetch and no action writes CY or a parameter, hence no step and no run does. -/
theorem carryAndParametersNeverChange : Obligations.CarryAndParametersNeverChange := by
  have hstep : ∀ s t, step s = .next t → t.flags.cy = s.flags.cy ∧ t.params = s.params := by
    intro s t h
    obtain ⟨-, i, -, hexec⟩ := step_next_inv h
    simp [exec_flags hexec, exec_params hexec]
  refine ⟨hstep, fun n s => ?_⟩
  refine runFor_keeps (P := fun t => t.flags.cy = s.flags.cy ∧ t.params = s.params) ?_ n s ⟨rfl, rfl⟩
  intro t u ⟨hcy, hparams⟩ h
  obtain ⟨hcy', hparams'⟩ := hstep t u h
  exact ⟨hcy'.trans hcy, hparams'.trans hparams⟩

/-- Settles O47: the two stack operations move SP by 2, and no other operation of an action writes it. -/
theorem stackPointerMoves : Obligations.StackPointerMoves := by
  intro i s t h
  cases i <;> simp at h <;> simp [← h, Instr.form, Form.mnemonic]

/-- Settles O52: each cell of a canonical memory goes to the end of the cells before it. -/
theorem everyMemoryCanBeInitial : Obligations.EveryMemoryCanBeInitial :=
  fun m h => Memory.foldl_set_eq_append m [] h

/-- Settles O21: each clause is a register read after a write, with the halves of the word as numbers. -/
theorem pairsAreViews : Obligations.PairsAreViews := by
  refine ⟨fun s => ?_, fun s p v => ?_, fun s p v => ?_⟩
  · simp [State.pair_eq, joinBytes_toNat, pairHi, pairLo]
  · refine ⟨?_, ?_, fun q hq => ?_, State.pair_setPair s p v⟩
    · simp [State.reg_setPair, pairHi_ne_pairLo, hiByte_toNat]
    · simp [State.reg_setPair, loByte_toNat]
    · obtain ⟨hhi, hlo⟩ : q ≠ pairHi p ∧ q ≠ pairLo p := by simpa using hq
      simp [State.reg_setPair, hhi, hlo]
  · simp [State.pair_eq, State.reg_setReg, pairHi_ne_pairLo, (pairHi_ne_pairLo p).symm]

/-- Settles O49: the fields are those of the reset record, and the table of DCR_AC is compared at all 256 old bytes. -/
theorem resetStartsAtZeroRunning : Obligations.ResetStartsAtZeroRunning :=
  ⟨rfl, rfl, rfl, rfl, by decide⟩

end Sys2Proof.Machine
end

section
/-! SUPPORT. What a sequence of byte accesses does to a state, said once for every action, fetch and step: the record and the
draws grow by the accesses that are hooked, and no cell changes but the unhooked ones written. -/

namespace Sys2Proof.Machine

/-- The access is a read. -/
def Access.isRead : Access → Bool
  | .read _ => true
  | .write _ => false

@[simp] theorem HookEvent.addr_access (e : HookEvent) : e.access.addr = e.addr := by cases e <;> rfl

/-- The recorded reads are the read accesses of the record. -/
theorem HookEvent.countP_isRead_eq (log : List HookEvent) :
    log.countP HookEvent.isRead = (log.map HookEvent.access).countP Access.isRead := by
  rw [List.countP_map]
  exact List.countP_congr fun e _ => by cases e <;> simp [HookEvent.isRead, HookEvent.access, Access.isRead]

/-- `xs` are the memory accesses on the way from `s` to `t`: of them the hooked ones are recorded, in order, each hooked read
makes a draw, and no cell changes but those written that no hook covers (R52, R53, R64). -/
structure Performs (xs : List Access) (s t : State) : Prop where
  params : t.params = s.params
  wf : Memory.wf s.mem → Memory.wf t.mem
  record : t.hookLog.map HookEvent.access = s.hookLog.map HookEvent.access ++ xs.filter (fun x => s.hooked x.addr)
  draws : t.draws = s.draws + (xs.filter (fun x => s.hooked x.addr)).countP Access.isRead
  frame : ∀ b, Access.write b ∉ xs ∨ s.hooked b = true → t.peek b = s.peek b

/-- Whether an address is hooked depends on the parameters alone. -/
theorem State.hooked_congr {s t : State} (h : t.params = s.params) (a : Word) : t.hooked a = s.hooked a := by
  simp [State.hooked, h]

/-! ## Operations on the memory -/

/-- Without an access, none of these parts of the state changes. -/
theorem Performs.refl (s : State) : Performs [] s s := by constructor <;> simp

/-- Writes to registers, SP, PC, flags and run status are no accesses. -/
theorem Performs.congr {xs : List Access} {s t u : State} (h : Performs xs s t) (hparams : u.params = t.params)
    (hmem : u.mem = t.mem) (hrecord : u.hookLog = t.hookLog) (hdraws : u.draws = t.draws) : Performs xs s u where
  params := hparams.trans h.params
  wf hs := hmem ▸ h.wf hs
  record := hrecord ▸ h.record
  draws := hdraws ▸ h.draws
  frame b hb := by rw [← h.frame b hb, State.peek, State.peek, hmem]

theorem Performs.trans {xs ys : List Access} {s t u : State} (h : Performs xs s t) (k : Performs ys t u) :
    Performs (xs ++ ys) s u where
  params := k.params.trans h.params
  wf hs := k.wf (h.wf hs)
  record := by simp [k.record, h.record, State.hooked_congr h.params]
  draws := by simp [k.draws, h.draws, State.hooked_congr h.params, Nat.add_assoc]
  frame b hb := by
    have hx : Access.write b ∉ xs ∨ s.hooked b = true := hb.imp_left (by simp +contextual)
    have hy : Access.write b ∉ ys ∨ t.hooked b = true := by
      rw [State.hooked_congr h.params]; exact hb.imp_left (by simp +contextual)
    rw [k.frame b hy, h.frame b hx]

theorem performs_readByte (s : State) (a : Word) : Performs [.read a] s (s.readByte a).2 where
  params := s.readByte_snd_params a
  wf hs := by simpa using hs
  record := by
    cases h : s.hooked a <;> simp [State.readByte_snd_hookLog, State.readEvents, Access.addr, HookEvent.access, h]
  draws := by cases h : s.hooked a <;> simp [State.readByte_snd_draws, State.drawsAt, Access.addr, Access.isRead, h]
  frame b _ := s.readByte_snd_peek a b

theorem performs_writeByte (s : State) (a : Word) (v : Byte) : Performs [.write a] s (s.writeByte a v) where
  params := s.writeByte_params a v
  wf hs := State.writeByte_wf hs a v
  record := by
    cases h : s.hooked a <;> simp [State.writeByte_hookLog, State.writeEvents, Access.addr, HookEvent.access, h]
  draws := by cases h : s.hooked a <;> simp [Access.addr, Access.isRead, h]
  frame b hb := by
    rw [State.writeByte_peek, State.storedAt, if_neg]
    rintro ⟨rfl, hfree⟩
    simp [hfree] at hb

theorem performs_pushWord (s : State) (v : Word) :
    Performs [.write (s.sp - 2), .write (s.sp - 1)] s (s.pushWord v) := by
  have haddr : s.sp - 2 + 1 = s.sp - 1 := by bv_omega
  have hsp : Performs [] s (s.setSp (s.sp - 2)) := (Performs.refl s).congr rfl rfl rfl rfl
  rw [← haddr]
  exact (hsp.trans (performs_writeByte _ _ _)).trans (performs_writeByte _ _ _)

theorem performs_popWord (s : State) : Performs [.read s.sp, .read (s.sp + 1)] s s.popWord.2 :=
  ((performs_readByte s s.sp).trans (performs_readByte _ (s.sp + 1))).congr rfl rfl rfl rfl

/-- Memory accesses keep the invariant: the record gains hooked accesses only, and a draw for each read of them. -/
theorem Performs.inv {xs : List Access} {s t : State} (h : Performs xs s t) (hs : s.Inv) : t.Inv := by
  obtain ⟨hwf, hhooks, hrecord, hdraws⟩ := hs
  refine ⟨h.wf hwf, h.params ▸ hhooks, fun e he => ?_, ?_⟩
  · have hmem : e.access ∈ t.hookLog.map HookEvent.access := List.mem_map_of_mem he
    rw [h.record, List.mem_append] at hmem
    rw [State.hooked_congr h.params, ← e.addr_access]
    rcases hmem with hold | hnew
    · obtain ⟨e', he', heq⟩ := List.mem_map.1 hold
      rw [← heq, e'.addr_access]
      exact hrecord e' he'
    · exact (List.mem_filter.1 hnew).2
  · rw [h.draws, hdraws, HookEvent.countP_isRead_eq, HookEvent.countP_isRead_eq, h.record, List.countP_append]

/-! ## Actions, fetches and steps -/

/-- An action makes the data accesses of its instruction in the table of R60. -/
theorem exec_performs {i : Instr} {s t : State} (h : exec i s = .next t) :
    Performs (dataAccesses (s.pair .hl) s.sp i) s t := by
  cases i with (simp at h; subst h; simp only [dataAccesses])
  | movRM _ | lda _ => exact (performs_readByte s _).congr rfl rfl rfl rfl
  | movMR _ | mviM _ | sta _ => exact performs_writeByte s _ _
  | inrM | dcrM => exact ((performs_readByte s _).trans (performs_writeByte _ _ _)).congr rfl rfl rfl rfl
  | push _ | call _ => exact (performs_pushWord s _).congr rfl rfl rfl rfl
  | pop _ | ret => exact (performs_popWord s).congr rfl rfl rfl rfl
  | movRR _ _ | mviR _ _ | lxi _ _ | inrR _ | dcrR _ | inx _ | jmp _ | hlt =>
    exact (Performs.refl s).congr rfl rfl rfl rfl

/-- The state after a fetch is the one after the reads of the opcode byte and of the operand bytes. -/
theorem State.afterFetch_eq_reads (s : State) (fmt : Format) (a : Word) :
    s.afterFetch fmt a = ((s.readByte a).2.readOperand fmt a).2 := by
  cases fmt with
    simp [State.afterFetch, State.readOperand, State.operandDraws, State.operandEvents, State.readByte_snd]
  | f2 => simp [State.readImm8, State.readByte_snd, State.drawsAt, State.readEvents, State.hooked]
  | f3 => simp [State.readImm16, State.readByte_snd, State.drawsAt, State.readEvents, State.hooked, Nat.add_assoc]

/-- A fetch reads the bytes of its instruction one after another (R98). -/
theorem performs_afterFetch (s : State) (fmt : Format) (a : Word) :
    Performs (fetchAccesses a fmt.length) s (s.afterFetch fmt a) := by
  have hop : Performs [.read (a + BitVec.ofNat 16 0)] s (s.readByte a).2 := by simpa using performs_readByte s a
  rw [State.afterFetch_eq_reads]
  cases fmt with
  | f1 => exact hop
  | f2 => exact hop.trans (performs_readByte _ _)
  | f3 => exact (hop.trans (performs_readByte _ _)).trans (performs_readByte _ _)

/-- A step makes the reads of its fetch, then the data accesses of its instruction (R60). -/
theorem step_performs {s t : State} (h : step s = .next t) :
    ∃ i u, s.decodeAt s.pc = some (i, u) ∧
      Performs (fetchAccesses s.pc i.length ++ dataAccesses (s.pair .hl) s.sp i) s t := by
  obtain ⟨-, i, hdec, hexec⟩ := step_next_inv h
  have hfetch : Performs (fetchAccesses s.pc i.length) s
      ((s.afterFetch i.form.format s.pc).setPc (s.pc + BitVec.ofNat 16 i.length)) :=
    (performs_afterFetch s i.form.format s.pc).congr rfl rfl rfl rfl
  exact ⟨i, _, hdec, hfetch.trans (exec_performs hexec)⟩

end Sys2Proof.Machine
end

section
/-! RESULTS. What the accesses of a step mean for the record, the memory and the invariant (R50, R53, R60, R63, R64). -/

namespace Sys2Proof.Machine

/-- Settles O18: a step changes the memory, the record and the draws by the accesses it performs alone. -/
theorem stepKeepsInvariant : Obligations.StepKeepsInvariant := by
  intro s t hs h
  obtain ⟨i, u, -, haccess⟩ := step_performs h
  exact haccess.inv hs

/-- Settles O15: a step performs the accesses of its fetch and of its instruction, and records the hooked ones of them. -/
theorem accessesInOrder : Obligations.AccessesInOrder := by
  intro s t h
  obtain ⟨i, u, hdec, haccess⟩ := step_performs h
  exact ⟨i, u, hdec, haccess.record⟩

/-- Settles O16: the accesses of a fetch are reads, so the writes of a step are those of its instruction. -/
theorem onlyStoresChangeMemory : Obligations.OnlyStoresChangeMemory := by
  intro s t i u h hdec b hb
  obtain ⟨j, v, hdec', haccess⟩ := step_performs h
  obtain ⟨rfl, -⟩ : j = i ∧ v = u := by simpa [hdec'] using hdec
  exact haccess.frame b (hb.imp_left (by simp [fetchAccesses]))

end Sys2Proof.Machine
end

section
/-! RESULTS. Two states that differ only in cells under hooks do the same: every read, write, fetch and action keeps them so,
and reads the same bytes in both (R52, R53, R63). -/

namespace Sys2Proof.Machine

/-- States that agree off the hooks differ in the memory alone, and there only under hooks. -/
theorem agreeOffHooks_iff {s u : State} :
    AgreeOffHooks s u ↔ ∃ m, u = { s with mem := m } ∧ ∀ a, s.hooked a = false → Memory.get m a.toNat = s.peek a := by
  constructor
  · rintro ⟨hregs, hsp, hpc, hflags, hrun, hparams, hdraws, hlog, hpeek⟩
    exact ⟨u.mem, by cases u; simp_all, hpeek⟩
  · rintro ⟨m, rfl, hpeek⟩
    exact ⟨rfl, rfl, rfl, rfl, rfl, rfl, rfl, rfl, hpeek⟩

namespace AgreeOffHooks

section
variable {s u : State} (h : AgreeOffHooks s u)
include h

/-! ## Updates without an access -/

/-- An update that neither reads nor writes the memory and leaves the parameters keeps the agreement. -/
theorem update (f : State → State) (hf : ∀ m, f { s with mem := m } = { f s with mem := m })
    (hmem : (f s).mem = s.mem) (hparams : (f s).params = s.params) : AgreeOffHooks (f s) (f u) := by
  obtain ⟨m, rfl, hpeek⟩ := agreeOffHooks_iff.1 h
  refine agreeOffHooks_iff.2 ⟨m, hf m, fun a ha => ?_⟩
  rw [State.hooked_congr hparams] at ha
  rw [hpeek a ha, State.peek, State.peek, hmem]

theorem setReg (r : Reg) (v : Byte) : AgreeOffHooks (s.setReg r v) (u.setReg r v) :=
  h.update (·.setReg r v) (fun _ => rfl) rfl rfl

theorem setPair (p : Pair) (v : Word) : AgreeOffHooks (s.setPair p v) (u.setPair p v) :=
  h.update (·.setPair p v) (fun _ => rfl) rfl rfl

theorem setSp (v : Word) : AgreeOffHooks (s.setSp v) (u.setSp v) := h.update (·.setSp v) (fun _ => rfl) rfl rfl

theorem setPc (v : Word) : AgreeOffHooks (s.setPc v) (u.setPc v) := h.update (·.setPc v) (fun _ => rfl) rfl rfl

theorem setFlags (f : Flags) : AgreeOffHooks (s.setFlags f) (u.setFlags f) :=
  h.update (·.setFlags f) (fun _ => rfl) rfl rfl

theorem setRun (r : RunStatus) : AgreeOffHooks (s.setRun r) (u.setRun r) := h.update (·.setRun r) (fun _ => rfl) rfl rfl

/-! ## Reads and writes -/

theorem hooked (a : Word) : u.hooked a = s.hooked a := by
  obtain ⟨-, -, -, -, -, hparams, -⟩ := h
  exact State.hooked_congr hparams a

/-- The value of a read is the draw under a hook, and the stored byte only where the two states agree on it. -/
theorem valueAt (n : Nat) (a : Word) : u.valueAt n a = s.valueAt n a := by
  obtain ⟨-, -, -, -, -, -, -, -, hpeek⟩ := id h
  rw [State.valueAt, State.valueAt, h.hooked]
  split
  · rfl
  · next ha => exact hpeek a (by simpa using ha)

theorem drawsAt (a : Word) : u.drawsAt a = s.drawsAt a := by rw [State.drawsAt, State.drawsAt, h.hooked]

theorem readByte_fst (a : Word) : (u.readByte a).1 = (s.readByte a).1 := by
  obtain ⟨-, -, -, -, -, -, hdraws, -⟩ := id h
  rw [State.readByte_fst, State.readByte_fst, hdraws, h.valueAt]

theorem readByte_snd (a : Word) : AgreeOffHooks (s.readByte a).2 (u.readByte a).2 := by
  rw [State.readByte_snd, State.readByte_snd]
  exact h.update (fun t => { t with draws := t.draws + t.drawsAt a, hookLog := t.hookLog ++ t.readEvents t.draws a })
    (fun _ => rfl) rfl rfl

theorem poke (a : Word) (v : Byte) : AgreeOffHooks (s.poke a v) (u.poke a v) := by
  obtain ⟨m, rfl, hpeek⟩ := agreeOffHooks_iff.1 h
  refine agreeOffHooks_iff.2 ⟨Memory.set m a.toNat v, rfl, fun b hb => ?_⟩
  have hb : s.hooked b = false := hb
  simp [State.peek_poke, Memory.get_set, BitVec.toNat_inj, hpeek b hb]

theorem writeByte (a : Word) (v : Byte) : AgreeOffHooks (s.writeByte a v) (u.writeByte a v) := by
  cases ha : s.hooked a with
  | true =>
    rw [State.writeByte_of_hooked ha, State.writeByte_of_hooked (by rwa [h.hooked])]
    exact h.update (·.noteWrite a v) (fun _ => rfl) rfl rfl
  | false =>
    rw [State.writeByte_of_unhooked ha, State.writeByte_of_unhooked (by rwa [h.hooked])]
    exact h.poke a v

theorem pushWord (v : Word) : AgreeOffHooks (s.pushWord v) (u.pushWord v) := by
  obtain ⟨-, hsp, -⟩ := id h
  rw [State.pushWord, State.pushWord, hsp]
  exact ((h.setSp _).writeByte _ _).writeByte _ _

theorem popWord_fst : u.popWord.1 = s.popWord.1 := by
  obtain ⟨-, hsp, -⟩ := id h
  simp only [State.popWord, State.readWord, hsp, h.readByte_fst, (h.readByte_snd s.sp).readByte_fst]

theorem popWord_snd : AgreeOffHooks s.popWord.2 u.popWord.2 := by
  obtain ⟨-, hsp, -⟩ := id h
  simp only [State.popWord, State.readWord, hsp]
  exact ((h.readByte_snd _).readByte_snd _).setSp _

/-! ## Fetches and actions -/

theorem operandAt (fmt : Format) (n : Nat) (a : Word) : u.operandAt fmt n a = s.operandAt fmt n a := by
  cases fmt <;> simp [State.operandAt, h.valueAt, h.drawsAt]

/-- The two states decode alike, each with its own state after the fetch (R98). -/
theorem decodeAt (a : Word) :
    u.decodeAt a = (s.decodeAt a).map (fun r => (r.1, u.afterFetch r.1.form.format a)) := by
  obtain ⟨-, -, -, -, -, hparams, hdraws, -⟩ := id h
  simp [State.decodeAt_eq, hparams, hdraws, h.valueAt, h.operandAt, h.drawsAt, Function.comp_def]

theorem afterFetch (fmt : Format) (a : Word) : AgreeOffHooks (s.afterFetch fmt a) (u.afterFetch fmt a) :=
  h.update (·.afterFetch fmt a) (fun _ => rfl) rfl rfl

/-- An action does the same on the two states. -/
theorem exec {i : Instr} {t : State} (he : exec i s = .next t) : ∃ v, Machine.exec i u = .next v ∧ AgreeOffHooks t v := by
  obtain ⟨hregs, hsp, hpc, hflags, -, hparams, -⟩ := id h
  have haddr : u.addrM = s.addrM := State.pair_congr hregs .hl
  cases i with
    (simp at he; subst he
     simp [haddr, State.reg_congr hregs, State.pair_congr hregs, hpc, hflags, hparams, h.readByte_fst, h.popWord_fst])
  | movRM _ | lda _ => exact (h.readByte_snd _).setReg _ _
  | movMR _ | mviM _ | sta _ => exact h.writeByte _ _
  | inrM | dcrM => exact ((h.readByte_snd _).writeByte _ _).setFlags _
  | push _ => exact h.pushWord _
  | call _ => exact (h.pushWord _).setPc _
  | pop _ => exact h.popWord_snd.setPair _ _
  | ret => exact h.popWord_snd.setPc _
  | movRR _ _ | mviR _ _ => exact h.setReg _ _
  | lxi _ _ | inx _ => exact h.setPair _ _
  | inrR _ | dcrR _ => exact (h.setReg _ _).setFlags _
  | jmp _ => exact h.setPc _
  | hlt => exact h.setRun _

end

end AgreeOffHooks

/-- Settles O48: the fetch and every action read the same in states that agree off the hooks and keep them so, and no access
writes a cell under a hook. -/
theorem hookedCellsAreNeverUsed : Obligations.HookedCellsAreNeverUsed := by
  refine ⟨fun s u t hsu h => ?_, fun s u f hsu h => ?_, fun s t a h ha => ?_⟩
  · obtain ⟨-, -, hpc, -, hrun, -⟩ := id hsu
    obtain ⟨hrunning, i, hdec, hexec⟩ := step_next_inv h
    obtain ⟨v, hv, htv⟩ := ((hsu.afterFetch i.form.format s.pc).setPc _).exec hexec
    refine ⟨v, step_next_iff.2 ⟨hrun.trans hrunning, i, u.afterFetch i.form.format s.pc, ?_, hpc ▸ hv⟩, htv⟩
    simp [hpc, hsu.decodeAt, hdec]
  · obtain ⟨-, -, hpc, -, hrun, -⟩ := id hsu
    obtain ⟨hrunning, hdec, rfl⟩ := step_fault_iff.1 h
    refine step_fault_iff.2 ⟨hrun.trans hrunning, ?_, by rw [hpc]⟩
    simp [hpc, hsu.decodeAt, hdec]
  · obtain ⟨i, u, -, haccess⟩ := step_performs h
    exact haccess.frame a (.inr ha)

end Sys2Proof.Machine
end

section
/-! RESULTS. The creation of a run: when hooks are registered one after another, and when a launch is accepted. -/

namespace Sys2Proof.Machine

/-- The state with these hooks registered. -/
def State.withHooks (s : State) (ks : List Hook) : State := { s with params := { s.params with hooks := ks } }

/-- One step after another succeeds when the first succeeds and the second does so on its result. -/
theorem except_bind_eq_ok {ε α β : Type} {x : Except ε α} {f : α → Except ε β} {b : β} :
    x.bind f = .ok b ↔ ∃ a, x = .ok a ∧ f a = .ok b := by
  cases x <;> simp [Except.bind]

/-- A hook can join a legal list exactly when its range is a range and overlaps none of the list (R62, R63). -/
theorem hooksOk_append_singleton {ks : List Hook} {k : Hook} :
    hooksOk (ks ++ [k]) ↔ hooksOk ks ∧ k.lo ≤ k.hi ∧ ∀ j ∈ ks, j.overlaps k = false := by
  simp only [hooksOk, List.pairwise_append, List.mem_append, List.mem_singleton]
  grind

theorem hooksOk_of_append {ks js : List Hook} (h : hooksOk (ks ++ js)) : hooksOk ks :=
  ⟨fun k hk => h.1 k (List.mem_append_left _ hk), (List.pairwise_append.1 h.2).1⟩

/-- Beside legal hooks, more are registered exactly when all together are legal, and then they are the state's hooks. -/
theorem State.registerHooks_ok (ks : List Hook) : ∀ {s t : State}, hooksOk s.params.hooks →
    (s.registerHooks ks = .ok t ↔ hooksOk (s.params.hooks ++ ks) ∧ t = s.withHooks (s.params.hooks ++ ks)) := by
  induction ks with
  | nil =>
    intro s t hs
    have hself : s.withHooks s.params.hooks = s := rfl
    rw [List.append_nil, hself]
    simp only [State.registerHooks, Except.ok.injEq]
    exact ⟨fun h => ⟨hs, h.symm⟩, fun h => h.2.symm⟩
  | cons k ks ih =>
    intro s t hs
    have hassoc : s.params.hooks ++ k :: ks = s.params.hooks ++ [k] ++ ks := by simp
    rw [State.registerHooks, except_bind_eq_ok, hassoc]
    constructor
    · rintro ⟨r, hr, ht⟩
      obtain ⟨hrange, hfree, rfl⟩ := State.registerHook_ok.1 hr
      exact (ih (hooksOk_append_singleton.2 ⟨hs, hrange, hfree⟩)).1 ht
    · rintro ⟨hall, rfl⟩
      have hk := hooksOk_of_append hall
      obtain ⟨-, hrange, hfree⟩ := hooksOk_append_singleton.1 hk
      exact ⟨s.withHooks (s.params.hooks ++ [k]), State.registerHook_ok.2 ⟨hrange, hfree, rfl⟩, (ih hk).2 ⟨hall, rfl⟩⟩

/-- A launch is accepted exactly with legal hooks and an image that fits and meets none of them, and then gives the record with
the hooks registered and the image stored from address 0 on (R230). -/
theorem Launch.state_ok {k : Launch} {s : State} :
    k.state = .ok s ↔ hooksOk k.hooks ∧ k.image.length ≤ 65536 ∧ (∀ h ∈ k.hooks, k.image.length ≤ h.lo.toNat) ∧
      s = (k.record.withHooks k.hooks).pokeBytes 0 k.image := by
  have hnone : hooksOk k.record.params.hooks := ⟨by simp [Launch.record], .nil⟩
  have hreg : ∀ r, k.record.registerHooks k.hooks = .ok r ↔ hooksOk k.hooks ∧ r = k.record.withHooks k.hooks :=
    fun r => State.registerHooks_ok k.hooks hnone
  rw [Launch.state, except_bind_eq_ok]
  constructor
  · rintro ⟨r, hr, hs⟩
    obtain ⟨hhooks, rfl⟩ := (hreg r).1 hr
    exact ⟨hhooks, State.loadImage_ok.1 hs⟩
  · rintro ⟨hhooks, himage⟩
    exact ⟨_, (hreg _).2 ⟨hhooks, rfl⟩, State.loadImage_ok.2 himage⟩

/-- Settles O51: the hooks are registered and the image is loaded under exactly these conditions. -/
theorem launchRefusedExactly : Obligations.LaunchRefusedExactly := by
  intro k
  simp only [Launch.state_ok, exists_and_left, exists_eq, and_true]

end Sys2Proof.Machine
end

section
/-! RESULTS. Byte and word accesses, memory without hooks, and the invariant at reset. -/

namespace Sys2Proof.Machine

/-- Settles O17: the reset memory lists no cell, and there is no hook, no record and no draw. -/
theorem resetMeetsInvariant : Obligations.ResetMeetsInvariant :=
  ⟨Memory.reset_wf, ⟨by simp [State.reset], .nil⟩, by simp [State.reset], rfl⟩

/-- Settles O22: one rule of the access layer for each clause. -/
theorem byteAccess : Obligations.ByteAccess := by
  refine ⟨fun s a ha => State.readByte_of_unhooked ha, fun s a ha => ?_, fun s a v b ha => ?_, fun s a v ha => ?_⟩
  · rw [State.readByte_of_hooked ha]
    exact ⟨rfl, fun _ => rfl, rfl, rfl⟩
  · rw [State.writeByte_of_unhooked ha, State.peek_poke]
  · rw [State.writeByte_of_hooked ha]
    exact ⟨fun _ => rfl, rfl⟩

/-- After a word write the two bytes' stores exclude each other, since `a + 1` is not `a`: either may be looked at first. -/
theorem State.writeWord_peek_low_first (s : State) (a v b : Word) :
    (s.writeWord a v).peek b
      = if b = a ∧ s.hooked a = false then loByte v
        else if b = a + 1 ∧ s.hooked (a + 1) = false then hiByte v else s.peek b := by
  rw [State.writeWord_peek]
  by_cases hb : b = a
  · have hne : b ≠ a + 1 := by subst hb; bv_omega
    simp only [State.storedAt, hne, false_and, if_false]
  · simp [State.storedAt, hb]

/-- Settles O23: the general clauses are the rules of the access layer, and the wrap is the general write at 0xFFFF. -/
theorem wordAccess : Obligations.WordAccess := by
  refine ⟨fun s a => ⟨s.readWord_fst a, ?_⟩, fun s a v => ⟨s.writeWord_peek_low_first a v, ?_⟩, fun s htop hzero => ?_⟩
  · rw [State.readWord_snd_hookLog, List.append_assoc]
  · rw [State.writeWord_hookLog, List.append_assoc]
  · have hwrap : (0xFFFF : Word) + 1 = 0 := by decide
    refine ⟨by rw [State.readWord_of_unhooked htop (by rwa [hwrap]), hwrap], fun v => ⟨?_, ?_⟩⟩
    · rw [State.writeWord_peek_low_first, if_pos ⟨rfl, htop⟩]
    · rw [State.writeWord_peek_low_first, hwrap, if_neg (fun h => absurd h.1 (by decide)), if_pos ⟨rfl, hzero⟩]

/-- Settles O24: no hook of the empty list covers an address. -/
theorem noHooksMeansPlainMemory : Obligations.NoHooksMeansPlainMemory := by
  intro s hs a
  have ha : s.hooked a = false := by simp [State.hooked, hs]
  exact ⟨State.readByte_of_unhooked ha, fun v => ⟨State.writeByte_of_unhooked ha v, fun b => State.peek_poke s a b v⟩⟩

end Sys2Proof.Machine
end

section
/-! SUPPORT. The decoder and the encoder undo each other (R117): what the decoder answers, on a list of bytes and in memory, said
through the entry of the opcode byte and the operand bytes of its format. -/

namespace Sys2Proof

/-! ## The opcode byte and its entry -/

/-- The byte of an entry finds that entry (R99). -/
@[simp] theorem lookup_opcode (f : Form) : lookup true f.opcode = some f := by
  cases f with
  | movRR dst src => cases dst <;> cases src <;> rfl
  | movRM r | movMR r | mviR r | inrR r | dcrR r => cases r <;> rfl
  | lxi p | push p | pop p | inx p => cases p <;> rfl
  | mviM | lda | sta | inrM | dcrM | jmp | call | ret | hlt => rfl

/-- An entry that is found has the byte it is found at: each of the 256 cells of the table is compared with R112's formula. -/
theorem opcode_of_lookup_true {op : Byte} {f : Form} (h : lookup true op = some f) : f.opcode = op := by
  have hall : ∀ op : Byte, ∀ f ∈ lookup true op, f.opcode = op := by decide
  exact hall op f h

/-- The entries under M_FORMS are those of the whole table that exist under it (R97). -/
theorem lookup_eq_some {mForms : Bool} {op : Byte} {f : Form} :
    lookup mForms op = some f ↔ lookup true op = some f ∧ (!f.usesM || mForms) = true := by
  rw [lookup_mForms, Option.filter_eq_some_iff]

/-- A byte has at most one entry and an entry one byte, for each M_FORMS. -/
theorem lookup_eq_some_iff_opcode {mForms : Bool} {op : Byte} {f : Form} :
    lookup mForms op = some f ↔ op = f.opcode ∧ (!f.usesM || mForms) = true := by
  rw [lookup_eq_some]
  refine and_congr_left fun _ => ⟨fun h => (opcode_of_lookup_true h).symm, ?_⟩
  rintro rfl
  exact lookup_opcode f

/-! ## Operand bytes by format -/

/-- The operand bytes that a value has in an instruction of this format (R81, R87, R88). -/
def Format.operandBytes : Format → Word → List Byte
  | .f1, _ => []
  | .f2, v => [loByte v]
  | .f3, v => [loByte v, hiByte v]

/-- The encoding of an entry with a value: the opcode byte, then the operand bytes of the format (R112). -/
theorem encode_instr (f : Form) (v : Word) : encode (f.instr v) = f.opcode :: f.format.operandBytes v := by
  cases f <;> rfl

/-- The decoder reads an entry's byte and the operand bytes of its format (R98). -/
theorem decode_of_lookup {mForms : Bool} {op : Byte} {f : Form} (h : lookup mForms op = some f) (v : Word)
    (rest : List Byte) : decode mForms (op :: f.format.operandBytes v ++ rest) = .ok (f.instr v, rest) := by
  cases f <;> simp [decode, h, Form.format, Format.operandBytes, Form.instr]

/-- Bytes that decode are a byte with an entry, then the operand bytes of the entry's format, then the rest. -/
theorem decode_ok {mForms : Bool} {bs rest : List Byte} {i : Instr} (h : decode mForms bs = .ok (i, rest)) :
    ∃ op f v, lookup mForms op = some f ∧ i = f.instr v ∧ bs = op :: f.format.operandBytes v ++ rest := by
  unfold decode at h
  split at h
  · cases h
  · split at h
    · cases h
    · rename_i op tail _ f hf
      split at h <;> cases h <;> rename_i hformat <;>
        exact ⟨op, f, _, hf, rfl, by simp [hformat, Format.operandBytes]⟩

/-- The decoder in terms of the encoder: it reads exactly the encodings of the instructions that exist (R117). -/
theorem decode_ok_iff {mForms : Bool} {bs rest : List Byte} {i : Instr} :
    decode mForms bs = .ok (i, rest) ↔ encode i ++ rest = bs ∧ i.wellFormed mForms = true := by
  constructor
  · intro h
    obtain ⟨op, f, v, hf, rfl, rfl⟩ := decode_ok h
    obtain ⟨rfl, hexists⟩ := lookup_eq_some_iff_opcode.1 hf
    rw [encode_instr, Instr.wellFormed_form, Form.instr_form]
    exact ⟨rfl, hexists⟩
  · rintro ⟨rfl, hexists⟩
    have hf : lookup mForms i.form.opcode = some i.form := lookup_eq_some_iff_opcode.2 ⟨rfl, hexists⟩
    have hdec := decode_of_lookup hf i.value rest
    rwa [← encode_instr, Instr.form_instr_value] at hdec

end Sys2Proof

namespace Sys2Proof.Machine

/-! ## Bytes in memory -/

/-- With no hook over them, the bytes of an instruction are those that its fetch reads: the opcode byte, then the operand bytes
of the value. -/
theorem State.bytesAt_of_unhooked {s : State} {a : Word} {fmt : Format} (h : s.Unhooked a fmt.length) (n : Nat) :
    s.bytesAt a fmt.length = s.valueAt s.draws a :: fmt.operandBytes (s.operandAt fmt n a) := by
  have hvalue : ∀ m, ∀ j < fmt.length, s.valueAt m (a + BitVec.ofNat 16 j) = s.peek (a + BitVec.ofNat 16 j) :=
    fun m j hj => by simp [State.valueAt, h j hj]
  have h0 : s.valueAt s.draws a = s.peek a := by simpa using hvalue s.draws 0 (by cases fmt <;> decide)
  cases fmt with
    simp [State.bytesAt, Format.length, Format.operandBytes, State.operandAt, h0, List.range_succ]
  | f2 => exact (hvalue n 1 (by decide)).symm
  | f3 => exact ⟨(hvalue n 1 (by decide)).symm, (hvalue _ 2 (by decide)).symm⟩

/-- With no hook over the bytes, the decoder in memory reads an instruction exactly where the list decoder reads it from those
bytes, and changes nothing. -/
theorem State.decodeAt_of_unhooked {s u : State} {a : Word} {i : Instr} (h : s.Unhooked a i.length) :
    s.decodeAt a = some (i, u) ↔ decode s.params.mForms (s.bytesAt a i.length) = .ok (i, []) ∧ u = s := by
  have hbytes := State.bytesAt_of_unhooked h (s.draws + s.drawsAt a)
  rw [Instr.length, hbytes]
  constructor
  · intro hdec
    obtain ⟨hf, hi, rfl⟩ := State.decodeAt_some hdec
    have hlist := decode_of_lookup hf (s.operandAt i.form.format (s.draws + s.drawsAt a) a) []
    rw [← hi, List.append_nil] at hlist
    exact ⟨hlist, State.afterFetch_of_unhooked h⟩
  · rintro ⟨hlist, rfl⟩
    have hf : lookup u.params.mForms (u.valueAt u.draws a) = some i.form := by
      obtain ⟨henc, hexists⟩ := decode_ok_iff.1 hlist
      rw [encode, List.append_nil] at henc
      exact lookup_eq_some_iff_opcode.2 ⟨(List.cons.inj henc).1.symm, hexists⟩
    have hi := decode_of_lookup hf (u.operandAt i.form.format (u.draws + u.drawsAt a) a) []
    rw [List.append_nil, hlist] at hi
    obtain ⟨hi, -⟩ := Prod.mk.inj (Except.ok.inj hi)
    rw [State.decodeAt_eq, hf, Option.map_some, State.afterFetch_of_unhooked h, ← hi]

end Sys2Proof.Machine
end

section
/-! RESULTS. The opcode table, and the round trip between instructions and their bytes, in a list and in memory (R93 to R99,
R112, R117). -/

namespace Sys2Proof.Machine

/-- Settles O2: an instruction that exists decodes from its encoding. -/
theorem decodeOfEncode : Obligations.DecodeOfEncode := fun _ _ _ h => decode_ok_iff.2 ⟨rfl, h⟩

/-- Settles O3: what decodes is an encoding. -/
theorem encodeOfDecode : Obligations.EncodeOfDecode := fun _ _ _ _ h => decode_ok_iff.1 h

/-- Settles O4: with no hook, decoding in memory is decoding the list of the bytes there; the flags are those an action leaves. -/
theorem roundTripInMemory : Obligations.RoundTripInMemory := by
  refine ⟨fun s a i hexists hfree hbytes => ?_, encode_length, fun s a i u hdec hfree => ?_, fun i s t h f hf => ?_⟩
  · exact (State.decodeAt_of_unhooked hfree).2 ⟨decode_ok_iff.2 ⟨by rw [hbytes, List.append_nil], hexists⟩, rfl⟩
  · obtain ⟨hlist, -⟩ := (State.decodeAt_of_unhooked hfree).1 hdec
    obtain ⟨henc, -⟩ := decode_ok_iff.1 hlist
    rwa [List.append_nil] at henc
  · rw [exec_flags h]
    cases i with
    | inrR _ | inrM | dcrR _ | dcrM =>
      obtain rfl : f = .cy := by cases f <;> simp [Instr.form, Form.mnemonic, declaredFlags] at hf ⊢
      exact Instr.flagsAfter_cy _ s
    | _ => rfl

/-- Settles O10: the fetch changes the draws and the record alone, and reads the operand by format. -/
theorem decodeReadsOpcodeThenOperands : Obligations.DecodeReadsOpcodeThenOperands := by
  refine fun s a => ⟨State.decodeAt_none.2, fun f hf => ?_⟩
  refine ⟨_, s.afterFetch f.format a, by rw [State.decodeAt_eq, hf]; rfl, fun _ _ => rfl, ⟨rfl, rfl⟩, fun _ => rfl,
    ⟨rfl, rfl, rfl⟩, fun hformat => ?_, fun hformat => ?_, fun hformat => ?_⟩
  · simp [State.afterFetch, State.operandAt, State.operandDraws, State.operandEvents, hformat]
  · simp [State.afterFetch, State.operandAt, State.operandDraws, State.operandEvents, hformat]
  · simp [State.afterFetch, State.operandAt, State.operandDraws, State.operandEvents, hformat, Nat.add_assoc]

/-- Settles O1: the decoder is run on each word. -/
theorem specWordsDecode : Obligations.SpecWordsDecode := ⟨rfl, rfl, rfl, rfl, rfl, rfl, rfl, rfl⟩

/-- Settles O5: the two readings are compared at each of the 256 bytes. -/
theorem tableAgreesWithFields : Obligations.TableAgreesWithFields := by
  unfold Obligations.TableAgreesWithFields
  decide

/-- Settles O6: the byte of an entry and the entry of a byte determine each other; M_FORMS false filters the forms with M. -/
theorem tableIsInjective : Obligations.TableIsInjective :=
  ⟨lookup_opcode, fun _ _ => opcode_of_lookup_true, fun op f => by simp [lookup_eq_some (mForms := false)]⟩

/-- Settles O7: the table is compared with the list at each of the 256 bytes. -/
theorem illegalBytesAreThoseListed : Obligations.IllegalBytesAreThoseListed := by
  unfold Obligations.IllegalBytesAreThoseListed
  decide

/-- Settles O8: the two columns of R91 are compared at each form. -/
theorem lengthFollowsFromModes : Obligations.LengthFollowsFromModes := by
  intro f
  cases f <;> rfl

end Sys2Proof.Machine
end

section
/-! SUPPORT. The two passes over several lines: what one line of either pass means for the other, and the inductions over the
lines, said once (R110, R113, R115). -/

namespace Sys2Proof.Machine

/-! ## Both passes over the lines -/

section
variable {mForms : Bool}

/-- Pass 1 over a line and the lines after it succeeds when it does on the line and then on the others (R110). -/
theorem pass1_cons_ok {n addr : Nat} {line : Text} {rest : List (Nat × Text)} {labels final : LabelTable} :
    pass1 mForms ((n, line) :: rest) addr labels = .ok final ↔
      ∃ addr' labels', pass1Line mForms line addr labels = .ok (addr', labels') ∧
        pass1 mForms rest addr' labels' = .ok final := by
  rw [pass1]
  cases pass1Line mForms line addr labels with
  | error e => simp
  | ok r => simp [Prod.ext_iff]

/-- Pass 2 over a line and the lines after it succeeds when it does on the line and on the others (R110). -/
theorem pass2_cons_ok {n : Nat} {line : Text} {rest : List (Nat × Text)} {table : LabelTable} {is : List Instr} :
    pass2 mForms table ((n, line) :: rest) = .ok is ↔
      ∃ o js, pass2Line mForms table line = .ok o ∧ pass2 mForms table rest = .ok js ∧ is = o.toList ++ js := by
  rw [pass2]
  cases pass2Line mForms table line with
  | error e => simp
  | ok o => cases pass2 mForms table rest <;> simp [eq_comm]

/-- An error of pass 1 names one of its lines (R114). -/
theorem pass1_error {lines : List (Nat × Text)} {addr : Nat} {labels : LabelTable} {e : AsmError}
    (h : pass1 mForms lines addr labels = .error e) : ∃ x ∈ lines, x.1 = e.line := by
  induction lines generalizing addr labels with
  | nil => cases h
  | cons x rest ih =>
    obtain ⟨n, line⟩ := x
    rw [pass1] at h
    split at h
    · cases h
      exact ⟨(n, line), by simp, rfl⟩
    · obtain ⟨y, hy, hline⟩ := ih h
      exact ⟨y, List.mem_cons_of_mem _ hy, hline⟩

/-- An error of pass 2 names one of its lines, and its class is that line's (R114). -/
theorem pass2_error {lines : List (Nat × Text)} {table : LabelTable} {e : AsmError}
    (h : pass2 mForms table lines = .error e) :
    ∃ x ∈ lines, x.1 = e.line ∧ pass2Line mForms table x.2 = .error e.kind := by
  induction lines with
  | nil => cases h
  | cons x rest ih =>
    obtain ⟨n, line⟩ := x
    rw [pass2] at h
    split at h
    · next hline =>
      cases h
      exact ⟨(n, line), by simp, rfl, hline⟩
    · split at h
      · next hrest =>
        cases h
        obtain ⟨y, hy, hline⟩ := ih hrest
        exact ⟨y, List.mem_cons_of_mem _ hy, hline⟩
      · cases h

/-- The lines of a text are numbered one after another. -/
theorem numbered_bounds {lines : List Text} {n : Nat} {x : Nat × Text} (h : x ∈ numbered n lines) :
    n ≤ x.1 ∧ x.1 < n + lines.length := by
  induction lines generalizing n with
  | nil => cases h
  | cons t lines ih =>
    rw [List.length_cons]
    rcases List.mem_cons.1 h with rfl | h
    · exact ⟨le_rfl, by omega⟩
    · have := ih h
      omega

/-! ## What pass 1 says of pass 2 -/

@[simp] theorem imageOf_append (is js : List Instr) : imageOf (is ++ js) = imageOf is ++ imageOf js := by
  simp [imageOf]

/-- The instruction of a line exists and has the length that pass 1 has counted for it (R97, R110). -/
theorem pass2Line_instr {line : Text} {addr addr' : Nat} {labels labels' table : LabelTable} {o : Option Instr}
    (h1 : pass1Line mForms line addr labels = .ok (addr', labels')) (h2 : pass2Line mForms table line = .ok o) :
    addr' = addr + (imageOf o.toList).length ∧ ∀ i ∈ o, i.wellFormed mForms = true := by
  obtain ⟨label, rest, oj, hsplit, -, hinstr, rfl, -⟩ := pass1Line_ok.1 h1
  obtain ⟨label', rest', hsplit', hcode⟩ := pass2Line_ok.1 h2
  obtain ⟨rfl, rfl⟩ := Prod.mk.inj (Except.ok.inj (hsplit.symm.trans hsplit'))
  rcases hcode with ⟨hinstr', rfl⟩ | ⟨j, i, hinstr', hvalue, rfl⟩
  · obtain rfl := Except.ok.inj (hinstr.symm.trans hinstr')
    exact ⟨rfl, by simp⟩
  · obtain rfl := Except.ok.inj (hinstr.symm.trans hinstr')
    have hform := SrcInstr.instr_form hvalue
    constructor
    · simp [imageOf, srcLength, encode_length, Instr.length, hform]
    · simpa [hform] using instrOf_usesM hinstr'

/-- A line that pass 1 accepts has in pass 2 only errors of its value (R115). -/
theorem pass2Line_error {line : Text} {addr : Nat} {labels table : LabelTable} {r : Nat × LabelTable} {e : AsmErrorKind}
    (h1 : pass1Line mForms line addr labels = .ok r) (h2 : pass2Line mForms table line = .error e) :
    e = .undefinedLabel ∨ e = .literalRange := by
  obtain ⟨label, rest, oj, hsplit, -, hinstr, -, -⟩ := pass1Line_ok.1 h1
  rw [pass2Line, hsplit] at h2
  simp only [hinstr] at h2
  cases oj with
  | none => cases h2
  | some j =>
    simp only [SrcInstr.instr] at h2
    cases hvalue : resolve table j.form.format j.value with
    | error e' =>
      rw [hvalue] at h2
      cases h2
      exact resolve_error hvalue
    | ok v => simp [hvalue] at h2

/-- Each line of a source that pass 1 accepts is accepted by pass 1 at some address and label table. -/
theorem pass1_line_of_mem {lines : List (Nat × Text)} {addr : Nat} {labels final : LabelTable} {x : Nat × Text}
    (h : pass1 mForms lines addr labels = .ok final) (hx : x ∈ lines) :
    ∃ addr labels r, pass1Line mForms x.2 addr labels = .ok r := by
  induction lines generalizing addr labels with
  | nil => cases hx
  | cons y rest ih =>
    obtain ⟨n, line⟩ := y
    obtain ⟨addr', labels', hline, hrest⟩ := pass1_cons_ok.1 h
    rcases List.mem_cons.1 hx with rfl | hx
    · exact ⟨addr, labels, _, hline⟩
    · exact ih hrest hx

/-- The address counter of pass 1 counts the bytes of pass 2: together with the bytes before them, those of a source fit the
memory, and its instructions exist (R110, R113). -/
theorem pass2_instrs {lines : List (Nat × Text)} {addr : Nat} {labels final table : LabelTable} {is : List Instr}
    (haddr : addr ≤ Config.memSize) (h1 : pass1 mForms lines addr labels = .ok final)
    (h2 : pass2 mForms table lines = .ok is) :
    addr + (imageOf is).length ≤ Config.memSize ∧ ∀ i ∈ is, i.wellFormed mForms = true := by
  induction lines generalizing addr labels is with
  | nil =>
    cases h2
    exact ⟨haddr, by simp⟩
  | cons x rest ih =>
    obtain ⟨n, line⟩ := x
    obtain ⟨addr', labels', hline, hrest⟩ := pass1_cons_ok.1 h1
    obtain ⟨o, js, hline2, hrest2, rfl⟩ := pass2_cons_ok.1 h2
    obtain ⟨rfl, hexists⟩ := pass2Line_instr hline hline2
    obtain ⟨-, -, -, -, -, -, -, hsize⟩ := pass1Line_ok.1 hline
    obtain ⟨hsum, hexist⟩ := ih hsize hrest hrest2
    refine ⟨by rw [imageOf_append, List.length_append, ← Nat.add_assoc]; exact hsum, fun i hi => ?_⟩
    rcases List.mem_append.1 hi with hi | hi
    · exact hexists i (Option.mem_toList.1 hi)
    · exact hexist i hi

/-! ## Labels -/

/-- Pass 1 keeps every label that is found already. -/
theorem pass1_find_old {lines : List (Nat × Text)} {addr a : Nat} {labels final : LabelTable} {name : Text}
    (h : pass1 mForms lines addr labels = .ok final) (hf : labels.find name = some a) : final.find name = some a := by
  induction lines generalizing addr labels with
  | nil =>
    cases h
    exact hf
  | cons x rest ih =>
    obtain ⟨n, line⟩ := x
    obtain ⟨addr', labels', hline, hrest⟩ := pass1_cons_ok.1 h
    obtain ⟨label, _, _, -, hdeclare, -⟩ := pass1Line_ok.1 hline
    exact ih hrest (LabelTable.find_declare_old hdeclare hf)

/-- A label declared behind some lines is found at the address before them and the bytes that pass 2 emits for them (R110). -/
theorem pass1_find_declared {before after : List (Nat × Text)} {n addr : Nat} {line name rest : Text}
    {labels final table : LabelTable} {is : List Instr}
    (h1 : pass1 mForms (before ++ (n, line) :: after) addr labels = .ok final)
    (hsplit : splitLabel (codeOf line) = .ok (some name, rest)) (h2 : pass2 mForms table before = .ok is) :
    final.find name = some (addr + (imageOf is).length) := by
  induction before generalizing addr labels is with
  | nil =>
    cases h2
    obtain ⟨addr', labels', hline, hafter⟩ := pass1_cons_ok.1 h1
    obtain ⟨label, rest', _, hsplit', hdeclare, -⟩ := pass1Line_ok.1 hline
    obtain ⟨rfl, rfl⟩ := Prod.mk.inj (Except.ok.inj (hsplit.symm.trans hsplit'))
    exact pass1_find_old hafter (LabelTable.find_declare_new hdeclare)
  | cons x before ih =>
    obtain ⟨m, first⟩ := x
    obtain ⟨addr', labels', hline, hrest⟩ := pass1_cons_ok.1 h1
    obtain ⟨o, js, hline2, hrest2, rfl⟩ := pass2_cons_ok.1 h2
    obtain ⟨rfl, -⟩ := pass2Line_instr hline hline2
    rw [ih hrest hrest2, imageOf_append, List.length_append, Nat.add_assoc]

/-! ## The encoder -/

/-- A source assembles when both passes over its lines succeed (R111). -/
theorem assemble_ok_iff {src : Text} {img : List Byte} :
    assemble mForms src = .ok img ↔ ∃ labels is, pass1 mForms (numbered 1 (sourceLines src)) 0 [] = .ok labels ∧
      pass2 mForms labels (numbered 1 (sourceLines src)) = .ok is ∧ img = imageOf is := by
  unfold assemble assembleInstrs
  cases pass1 mForms (numbered 1 (sourceLines src)) 0 [] with
  | error e => simp
  | ok labels => cases h : pass2 mForms labels (numbered 1 (sourceLines src)) <;> simp [h, eq_comm]

/-- A source that does not assemble has an error of one of the passes (R111). -/
theorem assemble_error {src : Text} {e : AsmError} (h : assemble mForms src = .error e) :
    pass1 mForms (numbered 1 (sourceLines src)) 0 [] = .error e ∨
      ∃ labels, pass2 mForms labels (numbered 1 (sourceLines src)) = .error e := by
  unfold assemble assembleInstrs at h
  cases h1 : pass1 mForms (numbered 1 (sourceLines src)) 0 [] with
  | error e' => exact .inl (by simpa [h1] using h)
  | ok labels =>
    refine .inr ⟨labels, ?_⟩
    cases h2 : pass2 mForms labels (numbered 1 (sourceLines src)) <;> simp [h1, h2] at h
    rw [h]

end

end Sys2Proof.Machine
end

section
/-! RESULTS. What the two passes of the encoder say of each other, and the worked assembly (R110 to R115, R118). -/

namespace Sys2Proof.Machine

/-- Settles O56: the address counter of pass 1 bounds the image of pass 2, whose instructions exist line by line. -/
theorem imageIsEncodedInstructions : Obligations.ImageIsEncodedInstructions := by
  intro mForms src img h
  obtain ⟨labels, is, h1, h2, rfl⟩ := assemble_ok_iff.1 h
  obtain ⟨hsize, hexist⟩ := pass2_instrs (Nat.zero_le _) h1 h2
  exact ⟨is, by rw [assembleInstrs, h1]; exact h2, rfl, hexist, by rwa [Nat.zero_add] at hsize⟩

/-- Settles O57: pass 1 starts at address 0, so a label's address is the number of bytes before its line. -/
theorem labelIsImageOffset : Obligations.LabelIsImageOffset := by
  intro mForms before n line after labels name rest is h1 hsplit h2
  rw [pass1_find_declared h1 hsplit h2, Nat.zero_add]

/-- Settles O58: the line of an error of pass 2 has passed pass 1, so only its value can be wrong. -/
theorem passTwoReportsLateErrorsOnly : Obligations.PassTwoReportsLateErrorsOnly := by
  intro mForms lines labels table e h1 h2
  obtain ⟨x, hx, -, hline2⟩ := pass2_error h2
  obtain ⟨addr, labels', r, hline⟩ := pass1_line_of_mem h1 hx
  exact pass2Line_error hline hline2

/-- Settles O59: an error of either pass names a numbered line. -/
theorem errorNamesSourceLine : Obligations.ErrorNamesSourceLine := by
  intro mForms src e h
  have hx : ∃ x ∈ numbered 1 (sourceLines src), x.1 = e.line := by
    rcases assemble_error h with h1 | ⟨labels, h2⟩
    · exact pass1_error h1
    · obtain ⟨x, hx, hline, -⟩ := pass2_error h2
      exact ⟨x, hx, hline⟩
  obtain ⟨x, hx, hline⟩ := hx
  have hbounds := numbered_bounds hx
  omega

set_option maxRecDepth 4000 in
/-- Settles O55: both passes are run on the lines of the source. -/
theorem workedAssembly : Obligations.WorkedAssembly := by
  refine assemble_ok_iff.2 ⟨[("data".toList, 3), ("start".toList, 4)],
    [.jmp 4, .hlt, .lxi .hl 3, .mviM 0x2A, .hlt], ?_, ?_, rfl⟩
  · rfl
  · rfl

end Sys2Proof.Machine
end

section
/-! SUPPORT. Reading back a line that is written of words: a mnemonic, a space, and operands with commas between them, each word
of letters and digits alone (R101 to R104). -/

namespace Sys2Proof.Machine

/-! ## Cutting and trimming -/

theorem cutAt_ne_nil (c : Char) (t : Text) : cutAt c t ≠ [] := by
  cases t with
  | nil => simp [cutAt]
  | cons x t =>
    rw [cutAt]
    split
    · simp
    · split <;> simp

@[simp] theorem cutAt_cons_self (c : Char) (t : Text) : cutAt c (c :: t) = [] :: cutAt c t := by
  rw [cutAt]
  split
  · next h => exact absurd h (cutAt_ne_nil c t)
  · next h => rw [if_pos rfl, h]

theorem cutAt_cons_ne {c x : Char} {t p : Text} {ps : List Text} (hx : x ≠ c) (h : cutAt c t = p :: ps) :
    cutAt c (x :: t) = (x :: p) :: ps := by
  rw [cutAt, h]
  exact if_neg hx

/-- A text that does not hold the character stays in one piece. -/
theorem cutAt_of_not_mem {c : Char} {t : Text} (h : c ∉ t) : cutAt c t = [t] := by
  induction t with
  | nil => rfl
  | cons x t ih =>
    obtain ⟨hx, ht⟩ := List.ne_and_not_mem_of_not_mem_cons h
    exact cutAt_cons_ne (Ne.symm hx) (ih ht)

/-- The first piece ends at the first occurrence of the character. -/
theorem cutAt_append_cons {c : Char} {t : Text} (h : c ∉ t) (u : Text) : cutAt c (t ++ c :: u) = t :: cutAt c u := by
  induction t with
  | nil => exact cutAt_cons_self c u
  | cons x t ih =>
    obtain ⟨hx, ht⟩ := List.ne_and_not_mem_of_not_mem_cons h
    exact cutAt_cons_ne (Ne.symm hx) (ih ht)

/-- The text begins and ends with a character that is no blank. -/
def NoBlankEnds (t : Text) : Prop :=
  (∃ c, t.head? = some c ∧ isBlank c = false) ∧ ∃ c, t.getLast? = some c ∧ isBlank c = false

theorem NoBlankEnds.ne_nil {t : Text} (h : NoBlankEnds t) : t ≠ [] := by
  rintro rfl
  simp [NoBlankEnds] at h

/-- What stands between two such texts is kept inside. -/
theorem NoBlankEnds.append_cons {t u : Text} (ht : NoBlankEnds t) (hu : NoBlankEnds u) (c : Char) :
    NoBlankEnds (t ++ c :: u) := by
  obtain ⟨⟨a, ha, hblank⟩, -⟩ := ht
  obtain ⟨-, b, hb, hblank'⟩ := hu
  exact ⟨⟨a, by simp [ha], hblank⟩, b, by simp [List.getLast?_cons, hb], hblank'⟩

theorem dropWhile_isBlank_of_head? {t : Text} {c : Char} (h : t.head? = some c) (hc : isBlank c = false) :
    t.dropWhile isBlank = t := by
  cases t with
  | nil => rfl
  | cons x t =>
    obtain rfl : x = c := by simpa using h
    simp [hc]

theorem trim_of_noBlankEnds {t : Text} (h : NoBlankEnds t) : trim t = t := by
  obtain ⟨⟨a, ha, hblank⟩, b, hb, hblank'⟩ := h
  rw [← List.head?_reverse] at hb
  rw [trim, dropWhile_isBlank_of_head? ha hblank, dropWhile_isBlank_of_head? hb hblank', List.reverse_reverse]

/-! ## Words -/

/-- A word of a source line: one or more letters and digits. -/
def IsWord (t : Text) : Prop := t ≠ [] ∧ ∀ c ∈ t, c.isAlphanum = true

theorem isWord_iff {t : Text} : IsWord t ↔ t ≠ [] ∧ t.all Char.isAlphanum = true := by
  rw [IsWord, List.all_eq_true]

/-- No separator stands in a word. -/
theorem IsWord.not_mem {t : Text} (h : IsWord t) {d : Char} (hd : d.isAlphanum = false) : d ∉ t := by
  intro hmem
  simp [h.2 d hmem] at hd

theorem isBlank_of_isAlphanum {c : Char} (h : c.isAlphanum = true) : isBlank c = false := by
  simp only [isBlank, Bool.or_eq_false_iff, decide_eq_false_iff_not]
  constructor <;> rintro rfl <;> exact absurd h (by decide)

theorem IsWord.noBlankEnds {t : Text} (h : IsWord t) : NoBlankEnds t := by
  obtain ⟨hne, hall⟩ := h
  exact ⟨⟨t.head hne, List.head?_eq_some_head hne, isBlank_of_isAlphanum (hall _ (List.head_mem hne))⟩,
    t.getLast hne, List.getLast?_eq_some_getLast hne, isBlank_of_isAlphanum (hall _ (List.getLast_mem hne))⟩

/-! ## Operands with commas between them -/

/-- Operands as they stand behind a mnemonic (R104). -/
def joinOperands : List Text → Text
  | [] => []
  | [t] => t
  | t :: u :: ts => t ++ ',' :: joinOperands (u :: ts)

/-- A source line of a mnemonic and its operands. -/
def lineOf (mnemonic : Text) (operands : List Text) : Text :=
  match operands with
  | [] => mnemonic
  | t :: ts => mnemonic ++ ' ' :: joinOperands (t :: ts)

section
variable {t mnemonic : Text} {ts : List Text}

theorem joinOperands_noBlankEnds (h : ∀ u ∈ t :: ts, IsWord u) : NoBlankEnds (joinOperands (t :: ts)) := by
  induction ts generalizing t with
  | nil => exact (h t (by simp)).noBlankEnds
  | cons u ts ih =>
    exact (h t (by simp)).noBlankEnds.append_cons (ih fun v hv => h v (List.mem_cons_of_mem t hv)) ','

/-- Cutting the operands at the commas gives them back. -/
theorem cutAt_joinOperands (h : ∀ u ∈ t :: ts, IsWord u) : cutAt ',' (joinOperands (t :: ts)) = t :: ts := by
  have hcomma : ∀ u ∈ t :: ts, ',' ∉ u := fun u hu => (h u hu).not_mem (by decide)
  induction ts generalizing t with
  | nil => exact cutAt_of_not_mem (hcomma t (by simp))
  | cons u ts ih =>
    rw [joinOperands, cutAt_append_cons (hcomma t (by simp)),
      ih (fun v hv => h v (List.mem_cons_of_mem t hv)) (fun v hv => hcomma v (List.mem_cons_of_mem t hv))]

/-- The operands of the text after a mnemonic are those of its words (R104). -/
theorem operandsOf_joinOperands (mForms : Bool) (h : ∀ u ∈ ts, IsWord u) :
    operandsOf mForms (joinOperands ts) = ts.mapM (operandOf mForms) := by
  cases ts with
  | nil => rfl
  | cons t ts =>
    have htrim : (t :: ts).map trim = t :: ts :=
      (List.map_congr_left fun u hu => trim_of_noBlankEnds (h u hu).noBlankEnds).trans (List.map_id _)
    rw [operandsOf, if_neg (joinOperands_noBlankEnds h).ne_nil, cutAt_joinOperands h]
    exact (List.mapM_map (f := trim) (g := operandOf mForms)).symm.trans (congrArg _ htrim)

theorem not_mem_joinOperands (h : ∀ u ∈ ts, IsWord u) {d : Char} (hd : d.isAlphanum = false) (hcomma : d ≠ ',') :
    d ∉ joinOperands ts := by
  induction ts using joinOperands.induct with
  | case1 => simp [joinOperands]
  | case2 t => exact (h t (by simp)).not_mem hd
  | case3 t u ts ih =>
    have ht := (h t (by simp)).not_mem hd
    have hts := ih fun v hv => h v (List.mem_cons_of_mem t hv)
    simp [joinOperands, ht, hcomma, hts]

/-! ## A line of words -/

theorem not_mem_lineOf (hm : IsWord mnemonic) (h : ∀ u ∈ ts, IsWord u) {d : Char} (hd : d.isAlphanum = false)
    (hcomma : d ≠ ',') (hspace : d ≠ ' ') : d ∉ lineOf mnemonic ts := by
  cases ts with
  | nil => exact hm.not_mem hd
  | cons t ts => simp [lineOf, hm.not_mem hd, not_mem_joinOperands h hd hcomma, hspace]

theorem lineOf_noBlankEnds (hm : IsWord mnemonic) (h : ∀ u ∈ ts, IsWord u) : NoBlankEnds (lineOf mnemonic ts) := by
  cases ts with
  | nil => exact hm.noBlankEnds
  | cons t ts => exact hm.noBlankEnds.append_cons (joinOperands_noBlankEnds h) ' '

/-- A line of words is all there is of its source (R101). -/
theorem sourceLines_lineOf (hm : IsWord mnemonic) (h : ∀ u ∈ ts, IsWord u) :
    sourceLines (lineOf mnemonic ts) = [lineOf mnemonic ts] := by
  have hnewline := not_mem_lineOf hm h (d := '\n') (by decide) (by decide) (by decide)
  simp [sourceLines, cutAt_of_not_mem hnewline]

/-- A line of words has no comment and no label (R101, R102). -/
theorem splitLabel_codeOf_lineOf (hm : IsWord mnemonic) (h : ∀ u ∈ ts, IsWord u) :
    splitLabel (codeOf (lineOf mnemonic ts)) = .ok (none, lineOf mnemonic ts) := by
  have hcomment := not_mem_lineOf hm h (d := ';') (by decide) (by decide) (by decide)
  have hcolon := not_mem_lineOf hm h (d := ':') (by decide) (by decide) (by decide)
  have hcode : codeOf (lineOf mnemonic ts) = lineOf mnemonic ts := by
    rw [codeOf, List.takeWhile_eq_self_iff.2, trim_of_noBlankEnds (lineOf_noBlankEnds hm h)]
    intro c hc
    rw [bne_iff_ne]
    rintro rfl
    exact hcomment hc
  rw [hcode, splitLabel, if_neg hcolon]

/-- A line of words splits behind its mnemonic. -/
theorem lineOf_split (hm : IsWord mnemonic) (h : ∀ u ∈ ts, IsWord u) :
    (lineOf mnemonic ts).takeWhile (fun c => !isBlank c) = mnemonic ∧
      trim ((lineOf mnemonic ts).dropWhile (fun c => !isBlank c)) = joinOperands ts := by
  have hword : ∀ c ∈ mnemonic, (!isBlank c) = true := fun c hc => by simp [isBlank_of_isAlphanum (hm.2 c hc)]
  cases ts with
  | nil =>
    refine ⟨List.takeWhile_eq_self_iff.2 hword, ?_⟩
    rw [lineOf, List.dropWhile_eq_nil_iff.2 hword]
    rfl
  | cons t ts =>
    have hspace : isBlank ' ' = true := rfl
    have htrim : trim (' ' :: joinOperands (t :: ts)) = trim (joinOperands (t :: ts)) := by simp [trim, hspace]
    rw [lineOf, List.takeWhile_append_of_pos hword, List.dropWhile_append_of_pos hword]
    simp [hspace, htrim, trim_of_noBlankEnds (joinOperands_noBlankEnds h)]

/-- A line of words is the instruction of its mnemonic with its operands (R103, R104, R108). -/
theorem instrOf_lineOf {mForms : Bool} {mn : Mnemonic} {ops : List Operand} {j : SrcInstr} (hm : IsWord mnemonic)
    (h : ∀ u ∈ ts, IsWord u) (hmn : mnemonicNamed mnemonic = some mn) (hops : ts.mapM (operandOf mForms) = .ok ops)
    (hshape : shapeOf mn ops = some j) : instrOf mForms (lineOf mnemonic ts) = .ok (some j) := by
  obtain ⟨htake, hdrop⟩ := lineOf_split hm h
  rw [instrOf, if_neg (lineOf_noBlankEnds hm h).ne_nil, htake, hmn, hdrop]
  simp only [operandsOf_joinOperands mForms h, hops, hshape]

end

end Sys2Proof.Machine
end

section
/-! SUPPORT. The source line of an instruction, operand by operand: its spelling, and how the encoder reads it (R103 to R108). -/

namespace Sys2Proof.Machine

/-! ## Hexadecimal literals -/

theorem hexChar_isAlphanum : ∀ n < 16, (hexChar n).isAlphanum = true := by decide

theorem hexChar_toLower : ∀ n < 16, (hexChar n).toLower = hexChar n := by decide

theorem hexChar_ne_h : ∀ n < 16, hexChar n ≠ 'h' := by decide

theorem digitValue_hexChar : ∀ n < 16, digitValue (hexChar n) = some n := by decide

/-- A number in hexadecimal as 0x and its digits (R106). -/
def hexText (ds : List Nat) : Text := '0' :: 'x' :: ds.map hexChar

/-- The value of hexadecimal digits, the most significant first. -/
def hexValue (ds : List Nat) : Nat := ds.foldl (fun acc d => 16 * acc + d) 0

section
variable {ds : List Nat} (h : ∀ d ∈ ds, d < 16)
include h

theorem isWord_hexText : IsWord (hexText ds) := by
  refine ⟨by simp [hexText], fun c hc => ?_⟩
  simp only [hexText, List.mem_cons, List.mem_map] at hc
  obtain rfl | rfl | ⟨d, hd, rfl⟩ := hc
  · rfl
  · rfl
  · exact hexChar_isAlphanum d (h d hd)

theorem digitsFrom_hexChar (acc : Nat) :
    digitsFrom 16 acc (ds.map hexChar) = some (ds.foldl (fun acc d => 16 * acc + d) acc) := by
  induction ds generalizing acc with
  | nil => rfl
  | cons d ds ih =>
    have hd : d < 16 := h d (by simp)
    simp only [List.map_cons, digitsFrom, digitValue_hexChar d hd, hd, if_true, List.foldl_cons]
    exact ih (fun e he => h e (List.mem_cons_of_mem d he)) _

theorem dropH_hexChar : dropH (ds.map hexChar) = none := by
  refine if_neg fun hlast => ?_
  obtain ⟨d, hd, hchar⟩ := List.mem_map.1 (List.mem_of_getLast? hlast)
  exact hexChar_ne_h d (h d hd) hchar

/-- A literal in hexadecimal has the value of its digits (R106). -/
theorem literal_hexText (hne : ds ≠ []) : literal (hexText ds) = some (hexValue ds) := by
  have hlower : lower (hexText ds) = hexText ds := by
    have hds : (ds.map hexChar).map Char.toLower = ds.map hexChar := by
      rw [List.map_map]
      exact List.map_congr_left fun d hd => hexChar_toLower d (h d hd)
    simp only [lower, hexText, List.map_cons, hds]
    rfl
  have hdecimal : digits 10 (hexText ds) = none := rfl
  obtain ⟨d, ds', rfl⟩ := List.exists_cons_of_ne_nil hne
  rw [literal, hlower]
  unfold literalLower
  rw [hdecimal]
  simp only [hexText, dropH_hexChar h, Option.getD_none]
  exact digitsFrom_hexChar h 0

/-- The encoder reads it as that literal (R104). -/
theorem operandOf_hexText (mForms : Bool) (hne : ds ≠ []) :
    operandOf mForms (hexText ds) = .ok (.lit (hexValue ds)) := by
  have hreg : regNamed (hexText ds) = none := rfl
  have hm : (lower (hexText ds) == ['m']) = false := rfl
  have hpair : pairNamed (hexText ds) = none := rfl
  have hdigit : ((hexText ds).head?.map Char.isDigit).getD false = true := rfl
  simp [operandOf, hreg, hm, hpair, hdigit, literal_hexText h hne]

end

/-- The hexadecimal digits of a byte. -/
def byteDigits (v : Byte) : List Nat := [v.toNat / 16, v.toNat % 16]

/-- The hexadecimal digits of a word. -/
def wordDigits (v : Word) : List Nat :=
  [v.toNat / 4096, v.toNat / 256 % 16, v.toNat / 16 % 16, v.toNat % 16]

theorem spellByte_eq (v : Byte) : spellByte v = hexText (byteDigits v) := rfl

theorem spellWord_eq (v : Word) : spellWord v = hexText (wordDigits v) := rfl

theorem byteDigits_lt (v : Byte) : ∀ d ∈ byteDigits v, d < 16 := by
  have := v.isLt
  simp only [byteDigits, List.forall_mem_cons, List.not_mem_nil, false_implies, implies_true, and_true]
  omega

theorem wordDigits_lt (v : Word) : ∀ d ∈ wordDigits v, d < 16 := by
  have := v.isLt
  simp only [wordDigits, List.forall_mem_cons, List.not_mem_nil, false_implies, implies_true, and_true]
  omega

theorem hexValue_byteDigits (v : Byte) : hexValue (byteDigits v) = v.toNat := by
  simp only [hexValue, byteDigits, List.foldl_cons, List.foldl_nil]
  omega

theorem hexValue_wordDigits (v : Word) : hexValue (wordDigits v) = v.toNat := by
  simp only [hexValue, wordDigits, List.foldl_cons, List.foldl_nil]
  omega

/-! ## Operands -/

section
variable (mForms : Bool)

@[simp] theorem operandOf_spellByte (v : Byte) : operandOf mForms (spellByte v) = .ok (.lit v.toNat) := by
  rw [spellByte_eq, operandOf_hexText (byteDigits_lt v) mForms (by simp [byteDigits]), hexValue_byteDigits]

@[simp] theorem operandOf_spellWord (v : Word) : operandOf mForms (spellWord v) = .ok (.lit v.toNat) := by
  rw [spellWord_eq, operandOf_hexText (wordDigits_lt v) mForms (by simp [wordDigits]), hexValue_wordDigits]

@[simp] theorem operandOf_spellReg (r : Reg) : operandOf mForms (spellReg r) = .ok (.reg r) := by
  cases r <;> rfl

@[simp] theorem operandOf_spellPair (p : Pair) : operandOf mForms (spellPair p) = .ok (.pair p) := by
  cases p <;> cases mForms <;> rfl

@[simp] theorem operandOf_spelledM : operandOf true ['m'] = .ok .m := rfl

end

@[simp] theorem isWord_spellByte (v : Byte) : IsWord (spellByte v) := isWord_hexText (byteDigits_lt v)

@[simp] theorem isWord_spellWord (v : Word) : IsWord (spellWord v) := isWord_hexText (wordDigits_lt v)

@[simp] theorem isWord_spellReg (r : Reg) : IsWord (spellReg r) := by
  cases r <;> exact isWord_iff.2 ⟨by decide, rfl⟩

@[simp] theorem isWord_spellPair (p : Pair) : IsWord (spellPair p) := by
  cases p <;> exact isWord_iff.2 ⟨by decide, rfl⟩

@[simp] theorem isWord_spelledM : IsWord ['m'] := isWord_iff.2 ⟨by decide, rfl⟩

/-! ## Mnemonics -/

/-- The mnemonic as `spell` writes it (R103). -/
def spellMnemonic : Mnemonic → Text
  | .mov => ['M', 'O', 'V']
  | .mvi => ['M', 'V', 'I']
  | .lxi => ['L', 'X', 'I']
  | .lda => ['L', 'D', 'A']
  | .sta => ['S', 'T', 'A']
  | .push => ['P', 'U', 'S', 'H']
  | .pop => ['P', 'O', 'P']
  | .inr => ['I', 'N', 'R']
  | .dcr => ['D', 'C', 'R']
  | .inx => ['I', 'N', 'X']
  | .jmp => ['J', 'M', 'P']
  | .call => ['C', 'A', 'L', 'L']
  | .ret => ['R', 'E', 'T']
  | .hlt => ['H', 'L', 'T']

theorem mnemonicNamed_spellMnemonic (mn : Mnemonic) : mnemonicNamed (spellMnemonic mn) = some mn := by
  cases mn <;> rfl

theorem isWord_spellMnemonic (mn : Mnemonic) : IsWord (spellMnemonic mn) := by
  cases mn <;> exact isWord_iff.2 ⟨by decide, rfl⟩

/-! ## The line of an instruction -/

/-- The operands of an instruction's source line as they are spelled (R108). -/
def Instr.operandTexts : Instr → List Text
  | .movRR dst src => [spellReg dst, spellReg src]
  | .movRM dst => [spellReg dst, ['m']]
  | .movMR src => [['m'], spellReg src]
  | .mviR dst v => [spellReg dst, spellByte v]
  | .mviM v => [['m'], spellByte v]
  | .lxi p v => [spellPair p, spellWord v]
  | .lda v | .sta v | .jmp v | .call v => [spellWord v]
  | .push p | .pop p | .inx p => [spellPair p]
  | .inrR r | .dcrR r => [spellReg r]
  | .inrM | .dcrM => [['m']]
  | .ret | .hlt => []

/-- The operands that the encoder reads there (R104). -/
def Instr.operands : Instr → List Operand
  | .movRR dst src => [.reg dst, .reg src]
  | .movRM dst => [.reg dst, .m]
  | .movMR src => [.m, .reg src]
  | .mviR dst v => [.reg dst, .lit v.toNat]
  | .mviM v => [.m, .lit v.toNat]
  | .lxi p v => [.pair p, .lit v.toNat]
  | .lda v | .sta v | .jmp v | .call v => [.lit v.toNat]
  | .push p | .pop p | .inx p => [.pair p]
  | .inrR r | .dcrR r => [.reg r]
  | .inrM | .dcrM => [.m]
  | .ret | .hlt => []

/-- The source instruction of that line: its entry, with its value as a literal where the entry has one (R108). -/
def Instr.source (i : Instr) : SrcInstr where
  form := i.form
  value := match i.form.format with
    | .f1 => .absent
    | .f2 | .f3 => .lit i.value.toNat

theorem spell_eq_lineOf (i : Instr) :
    spell i = lineOf (spellMnemonic i.form.mnemonic) (Instr.operandTexts i) := by
  cases i with
  | movRR r _ | movRM r | mviR r _ => cases r <;> rfl
  | lxi p _ => cases p <;> rfl
  | _ => rfl

theorem isWord_operandTexts (i : Instr) : ∀ t ∈ Instr.operandTexts i, IsWord t := by
  cases i <;> simp [Instr.operandTexts]

/-- The operands of an instruction that exists are read as what they spell: M only where M_FORMS is true (R97, R104). -/
theorem operandOf_operandTexts {mForms : Bool} {i : Instr} (h : i.wellFormed mForms = true) :
    (Instr.operandTexts i).mapM (operandOf mForms) = .ok (Instr.operands i) := by
  cases i with
  | movRM _ | movMR _ | mviM _ | inrM | dcrM =>
    obtain rfl : mForms = true := by simpa [Instr.form, Form.usesM] using h
    simp [Instr.operandTexts, Instr.operands, bind, Except.bind, pure, Except.pure]
  | _ => simp [Instr.operandTexts, Instr.operands, bind, Except.bind, pure, Except.pure]

/-- Mnemonic and operands select the instruction's entry (R108). -/
theorem shapeOf_operands (i : Instr) : shapeOf i.form.mnemonic (Instr.operands i) = some (Instr.source i) := by
  cases i <;>
    simp [Instr.operands, Instr.source, shapeOf, Operand.value16, Instr.form, Form.mnemonic, Form.format, Instr.value,
      joinBytes_toNat]

theorem joinBytes_zero_toNat (lo : Byte) : (joinBytes 0 lo).toNat = lo.toNat := by simp [joinBytes_toNat]

/-- The value of an instruction fits its format (R106). -/
theorem Instr.value_le_maxOperand (i : Instr) : i.value.toNat ≤ Format.maxOperand i.form.format := by
  cases i with
    simp only [Instr.value, Instr.form, Form.format, Format.maxOperand, joinBytes_zero_toNat]
  | mviR _ v | mviM v | lxi _ v | lda v | sta v | jmp v | call v => have := v.isLt; omega
  | _ => rfl

theorem Instr.value_of_f1 {i : Instr} (h : i.form.format = .f1) : i.value = 0 := by
  cases i with
  | mviR _ _ | mviM _ | lxi _ _ | lda _ | sta _ | jmp _ | call _ => cases h
  | _ => rfl

/-- The value of the source instruction is the instruction's, whatever the label table (R106, R107). -/
theorem resolve_source (labels : LabelTable) (i : Instr) :
    resolve labels i.form.format (Instr.source i).value = .ok i.value := by
  have hlit : resolve labels i.form.format (.lit i.value.toNat) = .ok i.value := by
    rw [resolve, if_pos (Instr.value_le_maxOperand i), BitVec.ofNat_toNat, BitVec.setWidth_eq]
  rw [Instr.source]
  split
  · next hformat => rw [Instr.value_of_f1 hformat]; rfl
  · exact hlit
  · exact hlit

theorem instr_source (labels : LabelTable) (i : Instr) : (Instr.source i).instr labels = .ok i := by
  have hform : (Instr.source i).form = i.form := rfl
  rw [SrcInstr.instr, hform, resolve_source]
  simp

/-- The encoder reads the line of an instruction that exists as its source instruction (R103, R104, R108). -/
theorem instrOf_spell {mForms : Bool} {i : Instr} (h : i.wellFormed mForms = true) :
    instrOf mForms (spell i) = .ok (some (Instr.source i)) := by
  rw [spell_eq_lineOf]
  exact instrOf_lineOf (isWord_spellMnemonic _) (isWord_operandTexts i) (mnemonicNamed_spellMnemonic _)
    (operandOf_operandTexts h) (shapeOf_operands i)

/-- The line of an instruction has no label and no comment (R101, R102). -/
theorem splitLabel_codeOf_spell (i : Instr) : splitLabel (codeOf (spell i)) = .ok (none, spell i) := by
  rw [spell_eq_lineOf]
  exact splitLabel_codeOf_lineOf (isWord_spellMnemonic _) (isWord_operandTexts i)

/-- The line of an instruction is all there is of its source (R101). -/
theorem sourceLines_spell (i : Instr) : sourceLines (spell i) = [spell i] := by
  rw [spell_eq_lineOf]
  exact sourceLines_lineOf (isWord_spellMnemonic _) (isWord_operandTexts i)

end Sys2Proof.Machine
end

section
/-! RESULTS. From the source line of an instruction to its bytes and back (R112, R117). -/

namespace Sys2Proof.Machine

/-- The source line of an instruction that exists assembles to its encoding (R112). -/
theorem assemble_spell {mForms : Bool} {i : Instr} (h : i.wellFormed mForms = true) :
    assemble mForms (spell i) = .ok (encode i) := by
  have hlines : numbered 1 (sourceLines (spell i)) = [(1, spell i)] := by rw [sourceLines_spell]; rfl
  have hsize : 0 + srcLength (some (Instr.source i)) ≤ Config.memSize :=
    (Nat.zero_add i.length).le.trans ((length_bounds i).2.trans (by decide))
  have hline1 : pass1Line mForms (spell i) 0 [] = .ok (0 + srcLength (some (Instr.source i)), []) :=
    pass1Line_ok.2 ⟨_, _, _, splitLabel_codeOf_spell i, rfl, instrOf_spell h, rfl, hsize⟩
  have hline2 : pass2Line mForms [] (spell i) = .ok (some i) :=
    pass2Line_ok.2 ⟨_, _, splitLabel_codeOf_spell i, .inr ⟨_, _, instrOf_spell h, instr_source [] i, rfl⟩⟩
  refine assemble_ok_iff.2 ⟨[], [i], ?_, ?_, by simp [imageOf]⟩
  · rw [hlines]
    exact pass1_cons_ok.2 ⟨_, _, hline1, rfl⟩
  · rw [hlines]
    exact pass2_cons_ok.2 ⟨_, _, hline2, rfl, rfl⟩

/-- Settles O60: the line assembles to the encoding, which decodes. -/
theorem assembleThenDecode : Obligations.AssembleThenDecode :=
  fun _ _ h => ⟨assemble_spell h, decode_ok_iff.2 ⟨List.append_nil _, h⟩⟩

end Sys2Proof.Machine
end

section
/-! SUPPORT. What an action leaves of PC and of the record of hooked accesses, and what a run does by the outcome of its first
step. -/

namespace Sys2Proof.Machine

/-! ## PC and the record after an action -/

section
variable {i : Instr} {s t : State}

/-- Of all actions only those of JMP, CALL and RET write PC (R132). -/
theorem exec_pc_of_not_transfer (h : exec i s = .next t) (hjmp : i.form.mnemonic ≠ .jmp)
    (hcall : i.form.mnemonic ≠ .call) (hret : i.form.mnemonic ≠ .ret) : t.pc = s.pc := by
  cases i with
  | jmp _ => exact absurd rfl hjmp
  | call _ => exact absurd rfl hcall
  | ret => exact absurd rfl hret
  | _ => simp at h; simp [← h]

theorem State.hooked_of_noHooks (h : s.params.hooks = []) (a : Word) : s.hooked a = false := by
  simp [State.hooked, h]

theorem State.writeByte_keepsHooks_of_noHooks (hs : s.params.hooks = []) (a : Word) (v : Byte) :
    KeepsHooks s (s.writeByte a v) := by
  rw [State.writeByte_of_unhooked (State.hooked_of_noHooks hs a)]
  exact ⟨rfl, rfl⟩

/-- Without hooks no access of an action is a draw or is recorded (R61, R64). -/
theorem exec_keepsHooks_of_noHooks (hs : s.params.hooks = []) (h : exec i s = .next t) : KeepsHooks s t := by
  have hfree := State.hooked_of_noHooks hs
  have hread (a : Word) : s.readByte a = (s.peek a, s) := State.readByte_of_unhooked (hfree a)
  cases i with (simp [hread] at h; subst h)
  | movMR _ | mviM _ | sta _ | inrM | dcrM => exact State.writeByte_keepsHooks_of_noHooks hs _ _
  | push _ | call _ => simp [KeepsHooks, State.pushWord_hookLog, State.writeEvents, hfree]
  | pop _ | ret => simp [KeepsHooks, State.popWord_hookLog, State.popWord_draws, State.readEvents, State.drawsAt, hfree]
  | movRR _ _ | movRM _ | mviR _ _ | lxi _ _ | lda _ | inrR _ | dcrR _ | inx _ | jmp _ | hlt => exact ⟨rfl, rfl⟩

/-- A step that gives a next state has run the action of the instruction that the bytes at PC decode to. -/
theorem step_next_exec {u : State} (h : step s = .next t) (hdec : s.decodeAt s.pc = some (i, u)) :
    exec i (u.setPc (s.pc + BitVec.ofNat 16 i.length)) = .next t := by
  obtain ⟨-, j, v, hdec', hexec⟩ := step_next_iff.1 h
  obtain ⟨rfl, rfl⟩ : j = i ∧ v = u := by simpa [hdec'] using hdec
  exact hexec

end

/-! ## A run by its first step (R139) -/

section
variable {s : State} (n : Nat)

theorem runFor_zero_of_running (h : s.run = .running) : runFor 0 s = (.stopped, s) := by simp [runFor, h]

theorem runFor_succ_of_next {t : State} (h : step s = .next t) : runFor (n + 1) s = runFor n t := by simp [runFor, h]

theorem runFor_succ_of_fault {f : Fault} (h : step s = .fault f) : runFor (n + 1) s = (.faulted f, s) := by
  simp [runFor, h]

theorem runFor_of_halted (h : s.run = .halted) : runFor n s = (.halted, s) := (haltedOnlyByHltAndTerminal.2 s h).2 n

end

end Sys2Proof.Machine
end

section
/-! RESULTS. The step and the run: the outcomes of a step, PC after it, and the ends of a run (R131 to R140). -/

namespace Sys2Proof.Machine

/-- Settles O9: the action gives some next state, and that is what the step gives. -/
theorem stepRunsDecodedInstruction : Obligations.StepRunsDecodedInstruction := by
  refine ⟨fun s i u hrun hdec => ?_, fun s hrun hdec => step_fault_iff.2 ⟨hrun, hdec, rfl⟩⟩
  obtain ⟨t, ht⟩ := exec_next i (u.setPc (s.pc + BitVec.ofNat 16 i.length))
  exact (step_next_iff.2 ⟨hrun, i, u, hdec, ht⟩).trans ht.symm

/-- Settles O11: the bytes at PC decode or not, and with no hook neither the fetch nor the action makes a recorded access. -/
theorem stepHasTwoOutcomes : Obligations.StepHasTwoOutcomes := by
  obtain ⟨hexec, hfault⟩ := stepRunsDecodedInstruction
  refine ⟨fun s hrun => ?_, fun s t h hs => ?_⟩
  · cases hdec : s.decodeAt s.pc with
    | none => exact .inr (hfault s hrun hdec)
    | some r =>
      obtain ⟨t, ht⟩ := exec_next r.1 (r.2.setPc (s.pc + BitVec.ofNat 16 r.1.length))
      exact .inl ⟨t, (hexec s r.1 r.2 hrun hdec).trans ht⟩
  · obtain ⟨-, i, -, ht⟩ := step_next_inv h
    rw [State.afterFetch_of_unhooked (fun _ _ => State.hooked_of_noHooks hs _)] at ht
    exact exec_keepsHooks_of_noHooks (s := s.setPc (s.pc + _)) hs ht

/-- Settles O12: decoding fails exactly where the byte has no entry, and a run exposes the state whose step faults. -/
theorem faultExactlyOnByteWithoutEntry : Obligations.FaultExactlyOnByteWithoutEntry := by
  refine ⟨fun s f => ?_, fun n s f h => ⟨runFor_succ_of_fault n h, (step_fault_iff.1 h).1⟩⟩
  rw [step_fault_iff, State.decodeAt_none]

/-- Settles O14: the action starts with PC advanced by the length, and only the transfers write PC again. -/
theorem pcAdvancesByLength : Obligations.PcAdvancesByLength := by
  intro s t i u h hdec hjmp hcall hret
  have hpc : t.pc = s.pc + BitVec.ofNat 16 i.length :=
    exec_pc_of_not_transfer (step_next_exec h hdec) hjmp hcall hret
  simp [hpc]

/-- Settles O53: by induction on the number of steps, with the outcome of the first step for each case. -/
theorem runEndsInThreeWays : Obligations.RunEndsInThreeWays := by
  intro n
  induction n with
  | zero =>
    intro s
    cases hrun : s.run with
    | running => rwa [runFor_zero_of_running hrun]
    | halted => rwa [runFor_of_halted 0 hrun]
  | succ n ih =>
    intro s
    cases hstep : step s with
    | next t =>
      rw [runFor_succ_of_next n hstep]
      exact ih t
    | fault f =>
      obtain ⟨hrun, -, hf⟩ := step_fault_iff.1 hstep
      rw [runFor_succ_of_fault n hstep]
      exact ⟨hrun, hf, hstep⟩
    | refused q =>
      obtain ⟨hrun, -⟩ := step_refused_iff.1 hstep
      rwa [runFor_of_halted _ hrun]

/-- Settles O54: by induction on the steps before the stop; a run that halts or faults among them was not stopped. -/
theorem stopChangesNothing : Obligations.StopChangesNothing := by
  intro n m
  induction n with
  | zero =>
    intro s t h
    cases hrun : s.run with
    | running =>
      obtain rfl : s = t := by simpa [runFor_zero_of_running hrun] using h
      rw [Nat.zero_add]
    | halted => simp [runFor_of_halted 0 hrun] at h
  | succ n ih =>
    intro s t h
    cases hstep : step s with
    | next u =>
      rw [runFor_succ_of_next n hstep] at h
      rw [Nat.add_right_comm, runFor_succ_of_next _ hstep, ih u t h]
    | fault f => simp [runFor_succ_of_fault n hstep] at h
    | refused q => simp [runFor_of_halted _ (step_refused_iff.1 hstep).1] at h

end Sys2Proof.Machine
end

section
/-! SUPPORT. What a statement about one instruction is made of: its encoding, whether it exists under M_FORMS, and the value, the
frame and the record that one register write, one load, one store, one push and one pop leave. -/

namespace Sys2Proof.Machine

/-! ## Encodings and entries -/

/-- What the encoder emits has the instruction's length and decodes to the instruction: comparing the bytes is enough (R117). -/
theorem hasEncoding_of_encode {i : Instr} {bs : List Byte} (h : encode i = bs) : HasEncoding i bs :=
  ⟨h, h ▸ (encode_length i).symm, fun _ _ hexists => decode_ok_iff.2 ⟨h ▸ rfl, hexists⟩⟩

theorem alwaysExists_of_usesM_eq_false {i : Instr} (h : i.form.usesM = false) : AlwaysExists i := by
  intro mForms
  simp [h]

theorem onlyWithMForms_of_usesM {i : Instr} (h : i.form.usesM = true) : OnlyWithMForms i := by
  refine ⟨by simp, ?_⟩
  rw [lookup_mForms, lookup_opcode]
  simp [h]

/-- A byte that the whole table leaves empty has no entry under either M_FORMS (R94, R97). -/
theorem noEntry_singleton {op : Byte} (h : lookup true op = none) : NoEntry [op] := by
  intro op' hop mForms
  obtain rfl := List.mem_singleton.1 hop
  rw [lookup_mForms, h, Option.filter_none]

/-! ## Register and pair writes -/

section
variable {s u : State}

theorem keepsRegsBut_nil (h : u.regs = s.regs) : KeepsRegsBut [] s u := fun q _ => State.reg_congr h q

theorem keepsRegsBut_setReg (h : u.regs = s.regs) (r : Reg) (v : Byte) : KeepsRegsBut [r] s (u.setReg r v) := by
  intro q hq
  rw [State.reg_setReg, if_neg (by simpa using hq), State.reg_congr h]

theorem keepsRegsBut_setPair (h : u.regs = s.regs) (p : Pair) (v : Word) :
    KeepsRegsBut [pairHi p, pairLo p] s (u.setPair p v) := by
  intro q hq
  obtain ⟨hhi, hlo⟩ : q ≠ pairHi p ∧ q ≠ pairLo p := by simpa using hq
  rw [State.reg_setPair, if_neg hlo, if_neg hhi, State.reg_congr h]

end

section
variable (s : State)

@[simp] theorem State.reg_setReg_same (r : Reg) (v : Byte) : (s.setReg r v).reg r = v := Regs.get_set_same s.regs r v

@[simp] theorem State.reg_pairLo_setPair (p : Pair) (v : Word) : (s.setPair p v).reg (pairLo p) = loByte v := by
  simp [State.reg_setPair]

@[simp] theorem State.reg_pairHi_setPair (p : Pair) (v : Word) : (s.setPair p v).reg (pairHi p) = hiByte v := by
  simp [State.reg_setPair, pairHi_ne_pairLo]

@[simp] theorem State.loByte_pair (p : Pair) : loByte (s.pair p) = s.reg (pairLo p) := by
  rw [State.pair_eq, loByte_joinBytes]

@[simp] theorem State.hiByte_pair (p : Pair) : hiByte (s.pair p) = s.reg (pairHi p) := by
  rw [State.pair_eq, hiByte_joinBytes]

/-- A register write changes that register alone (R24). -/
theorem State.setReg_effect (r : Reg) (v : Byte) :
    (s.setReg r v).reg r = v ∧ KeepsRegsBut [r] s (s.setReg r v) ∧ KeepsPointers s (s.setReg r v) ∧
      KeepsMem s (s.setReg r v) ∧ KeepsStatus s (s.setReg r v) ∧ KeepsHooks s (s.setReg r v) :=
  ⟨s.reg_setReg_same r v, keepsRegsBut_setReg rfl r v, ⟨rfl, rfl⟩, fun _ => rfl, ⟨rfl, rfl, rfl⟩, ⟨rfl, rfl⟩⟩

/-- A pair write changes the two halves alone (R22, R24). -/
theorem State.setPair_effect (p : Pair) (v : Word) :
    (s.setPair p v).reg (pairHi p) = hiByte v ∧ (s.setPair p v).reg (pairLo p) = loByte v ∧
      KeepsRegsBut [pairHi p, pairLo p] s (s.setPair p v) ∧ KeepsPointers s (s.setPair p v) ∧
      KeepsMem s (s.setPair p v) ∧ KeepsStatus s (s.setPair p v) ∧ KeepsHooks s (s.setPair p v) :=
  ⟨s.reg_pairHi_setPair p v, s.reg_pairLo_setPair p v, keepsRegsBut_setPair rfl p v, ⟨rfl, rfl⟩, fun _ => rfl,
    ⟨rfl, rfl, rfl⟩, ⟨rfl, rfl⟩⟩

/-! ## One load and one store -/

/-- A byte store reaches one cell or the hook over it, and no register (R53, R64). -/
theorem State.writeByte_effect (a : Word) (v : Byte) :
    (∀ b, (s.writeByte a v).peek b = s.storedAt a v b) ∧ KeepsRegsBut [] s (s.writeByte a v) ∧
      KeepsPointers s (s.writeByte a v) ∧ KeepsStatus s (s.writeByte a v) ∧ (s.writeByte a v).draws = s.draws ∧
      (s.writeByte a v).hookLog = s.hookLog ++ s.writeEvents a v :=
  ⟨s.writeByte_peek a v, keepsRegsBut_nil (s.writeByte_regs a v), ⟨s.writeByte_sp a v, s.writeByte_pc a v⟩,
    ⟨s.writeByte_flags a v, s.writeByte_run a v, s.writeByte_params a v⟩, s.writeByte_draws a v, s.writeByte_hookLog a v⟩

/-- The state after the byte at `a` has been read and then written into a register. -/
def State.loadReg (r : Reg) (a : Word) : State := (s.readByte a).2.setReg r (s.readByte a).1

theorem exec_lda_eq_loadReg (a16 : Word) : exec (.lda a16) s = .next (s.loadReg .a a16) := rfl

theorem exec_movRM_eq_loadReg (dst : Reg) : exec (.movRM dst) s = .next (s.loadReg dst (s.pair .hl)) := rfl

/-- A load changes the one register, and the record where a hook covers the address (R52, R64). -/
theorem State.loadReg_effect (r : Reg) (a : Word) :
    (s.loadReg r a).reg r = s.valueAt s.draws a ∧ KeepsRegsBut [r] s (s.loadReg r a) ∧ KeepsPointers s (s.loadReg r a) ∧
      KeepsMem s (s.loadReg r a) ∧ KeepsStatus s (s.loadReg r a) ∧ (s.loadReg r a).draws = s.draws + s.drawsAt a ∧
      (s.loadReg r a).hookLog = s.hookLog ++ s.readEvents s.draws a := by
  refine ⟨?_, keepsRegsBut_setReg (s.readByte_snd_regs a) r _, ⟨s.readByte_snd_sp a, s.readByte_snd_pc a⟩,
    s.readByte_snd_peek a, ⟨s.readByte_snd_flags a, s.readByte_snd_run a, s.readByte_snd_params a⟩,
    s.readByte_snd_draws a, s.readByte_snd_hookLog a⟩
  rw [State.loadReg, State.reg_setReg_same, State.readByte_fst]

/-! ## One push and one pop -/

/-- The second byte of a pushed word stands one below the old SP. -/
theorem sub_two_add_one (a : Word) : a - 2 + 1 = a - 1 := by bv_omega

/-- A push stores the low byte at the new SP and the high byte above it, each unless hooked (R56, R158). -/
theorem State.pushWord_stores (v b : Word) :
    (s.pushWord v).peek b
      = if b = s.sp - 2 ∧ s.hooked (s.sp - 2) = false then loByte v
        else if b = s.sp - 1 ∧ s.hooked (s.sp - 1) = false then hiByte v else s.peek b := by
  rw [← sub_two_add_one]
  exact (s.setSp (s.sp - 2)).writeWord_peek_low_first (s.sp - 2) v b

theorem State.pushWord_records (v : Word) :
    (s.pushWord v).hookLog
      = s.hookLog ++ s.writeEvents (s.sp - 2) (loByte v) ++ s.writeEvents (s.sp - 1) (hiByte v) := by
  rw [State.pushWord_hookLog, sub_two_add_one, List.append_assoc]

theorem State.popWord_records :
    s.popWord.2.hookLog
      = s.hookLog ++ s.readEvents s.draws s.sp ++ s.readEvents (s.draws + s.drawsAt s.sp) (s.sp + 1) := by
  rw [State.popWord_hookLog, List.append_assoc]

end

/-- A pop with no hook on its bytes: both bytes from storage, and SP up by 2 (R159). -/
theorem State.popWord_of_unhooked {s : State} (h0 : s.hooked s.sp = false) (h1 : s.hooked (s.sp + 1) = false) :
    s.popWord = (joinBytes (s.peek (s.sp + 1)) (s.peek s.sp), s.setSp (s.sp + 2)) := by
  simp only [State.popWord, State.readWord_of_unhooked h0 h1]

/-- Where SP and the two bytes of a pushed word are as the push left them, and no hook covers them, a pop gives the word back and
SP as before the push (R160). -/
theorem State.popWord_of_pushed {s u : State} {v : Word} (hsp : u.sp = s.sp - 2) (hparams : u.params = s.params)
    (hlo : u.peek (s.sp - 2) = (s.pushWord v).peek (s.sp - 2)) (hhi : u.peek (s.sp - 1) = (s.pushWord v).peek (s.sp - 1))
    (h2 : s.hooked (s.sp - 2) = false) (h1 : s.hooked (s.sp - 1) = false) : u.popWord = (v, u.setSp s.sp) := by
  have hup : u.sp + 1 = s.sp - 1 := by rw [hsp, sub_two_add_one]
  have hback : u.sp + 2 = s.sp := by rw [hsp]; bv_omega
  have hne : s.sp - 1 ≠ s.sp - 2 := by bv_omega
  have hlow : u.peek (s.sp - 2) = loByte v := by rw [hlo, State.pushWord_stores, if_pos ⟨rfl, h2⟩]
  have hhigh : u.peek (s.sp - 1) = hiByte v := by
    rw [hhi, State.pushWord_stores, if_neg (fun h => hne h.1), if_pos ⟨rfl, h1⟩]
  have h0u : u.hooked u.sp = false := by rw [State.hooked_congr hparams, hsp, h2]
  have h1u : u.hooked (u.sp + 1) = false := by rw [State.hooked_congr hparams, hup, h1]
  rw [State.popWord_of_unhooked h0u h1u, hup, hback, hsp, hlow, hhigh, joinBytes_hiByte_loByte]

end Sys2Proof.Machine
end

section
/-! SUPPORT. Pushing several pairs and popping them in reverse order (R160), and the flags after INR and DCR in the words of R29
and R30. -/

namespace Sys2Proof.Machine

/-! ## Several actions -/

theorem execAll_cons {i : Instr} {s t : State} (h : exec i s = .next t) (is : List Instr) :
    execAll (i :: is) s = execAll is t := by
  simp only [execAll, h]

theorem execAll_append {is : List Instr} {t : State} (js : List Instr) :
    ∀ {s : State}, execAll is s = .next t → execAll (is ++ js) s = execAll js t := by
  induction is with
  | nil =>
    rintro s ⟨⟩
    rfl
  | cons i is ih =>
    intro s h
    obtain ⟨u, hu⟩ := exec_next i s
    rw [execAll_cons hu] at h
    rw [List.cons_append, execAll_cons hu, ih h]

/-! ## Pushes, then pops in reverse order -/

/-- The pairs pushed in order, then popped in reverse order. -/
def pushesThenPops (ps : List Pair) : List Instr := ps.map Instr.push ++ ps.reverse.map Instr.pop

/-- The pushes and pops of a list nest: those of the tail stand between the first pair's push and its pop. -/
theorem pushesThenPops_cons (p : Pair) (ps : List Pair) :
    pushesThenPops (p :: ps) = .push p :: (pushesThenPops ps ++ [.pop p]) := by
  simp [pushesThenPops]

/-- The address is one of the `n` addresses below `sp`, modulo 65536. -/
def InStack (sp : Word) (n : Nat) (a : Word) : Prop := ∃ j, 1 ≤ j ∧ j ≤ n ∧ a = sp - BitVec.ofNat 16 j

/-- The stack bytes below a pushed word are stack bytes of the SP before the push. -/
theorem InStack.of_sub_two {sp a : Word} {n : Nat} (h : InStack (sp - 2) n a) : InStack sp (n + 2) a := by
  obtain ⟨j, hj, hn, rfl⟩ := h
  refine ⟨j + 2, by omega, by omega, ?_⟩
  rw [BitVec.ofNat_add]
  bv_omega

/-- The bytes of the first pushed word lie outside the stack bytes below it, as long as the stack does not wrap onto them. -/
theorem not_inStack_sub_two {sp : Word} {n k : Nat} (hn : n + 2 ≤ 65536) (h1 : 1 ≤ k) (h2 : k ≤ 2) :
    ¬ InStack (sp - 2) n (sp - BitVec.ofNat 16 k) := by
  rintro ⟨j, hj, hjn, h⟩
  bv_omega

/-- The invariant of nested pushes and pops: besides SP and the registers, the parameters and every byte outside the stack
bytes they use are as before, so that a word pushed earlier is still there. -/
structure Restores (n : Nat) (s t : State) : Prop where
  sp : t.sp = s.sp
  regs : t.regs = s.regs
  params : t.params = s.params
  mem : ∀ a, ¬ InStack s.sp n a → t.peek a = s.peek a

/-- A push and a pop of one pair around actions that restore what the push left. -/
theorem Restores.around {n : Nat} {s u : State} {p : Pair} (h : Restores n (s.pushWord (s.pair p)) u)
    (hn : n + 2 ≤ 65536) (hfree : ∀ a, InStack s.sp (n + 2) a → s.hooked a = false) :
    exec (.pop p) u = .next ((u.setSp s.sp).setPair p (s.pair p)) ∧
      Restores (n + 2) s ((u.setSp s.sp).setPair p (s.pair p)) := by
  obtain ⟨hsp, hregs, hparams, hmem⟩ := h
  rw [State.pushWord_sp] at hsp hmem
  rw [State.pushWord_regs] at hregs
  rw [State.pushWord_params] at hparams
  have h1 : InStack s.sp (n + 2) (s.sp - 1) := ⟨1, by omega, by omega, rfl⟩
  have h2 : InStack s.sp (n + 2) (s.sp - 2) := ⟨2, by omega, by omega, rfl⟩
  have hpop : u.popWord = (s.pair p, u.setSp s.sp) :=
    State.popWord_of_pushed hsp hparams (hmem _ (not_inStack_sub_two hn (by decide) (by decide)))
      (hmem _ (not_inStack_sub_two hn (by decide) (by decide))) (hfree _ h2) (hfree _ h1)
  refine ⟨by rw [exec_pop, hpop], rfl, ?_, hparams, fun a ha => ?_⟩
  · rw [State.setPair_regs, State.setSp_regs, hregs]
    exact Regs.setPair_getPair_self s.regs p
  · have hpush : (s.pushWord (s.pair p)).peek a = s.peek a := by
      have hne1 : a ≠ s.sp - 1 := fun h => ha (h ▸ h1)
      have hne2 : a ≠ s.sp - 2 := fun h => ha (h ▸ h2)
      rw [State.pushWord_stores, if_neg (fun h => hne2 h.1), if_neg (fun h => hne1 h.1)]
    rw [State.setPair_peek, State.setSp_peek, hmem a (mt InStack.of_sub_two ha), hpush]

/-- By induction on the pairs: the tail's pushes and pops run between the first pair's push and its pop. -/
theorem execAll_pushesThenPops (ps : List Pair) :
    ∀ s : State, 2 * ps.length ≤ 65536 → (∀ a, InStack s.sp (2 * ps.length) a → s.hooked a = false) →
      ∃ t, execAll (pushesThenPops ps) s = .next t ∧ Restores (2 * ps.length) s t := by
  induction ps with
  | nil => exact fun s _ _ => ⟨s, rfl, rfl, rfl, rfl, fun _ _ => rfl⟩
  | cons p ps ih =>
    intro s hn hfree
    rw [List.length_cons, Nat.mul_succ] at hn hfree ⊢
    obtain ⟨u, hu, hrestores⟩ := ih (s.pushWord (s.pair p)) (by omega) fun a ha => by
      rw [State.pushWord_sp] at ha
      rw [State.pushWord_hooked, hfree a ha.of_sub_two]
    obtain ⟨hpop, ht⟩ := hrestores.around hn hfree
    refine ⟨_, ?_, ht⟩
    rw [pushesThenPops_cons, execAll_cons (exec_push s p), execAll_append _ hu, execAll_cons hpop, execAll]

/-! ## The flags after INR and DCR -/

/-- The exclusive or of the eight bits against the number of 1 bits, compared at all 256 bytes (R11, D7). -/
theorem parityEven_eq (v : Byte) : parityEven v = decide (onesCount v % 2 = 0) := by
  have hall : ∀ v : Byte, parityEven v = decide (onesCount v % 2 = 0) := by decide
  exact hall v

/-- Z, S and P from the result, AC as given and CY kept is what R30 declares. -/
theorem flagsFromResult_setZSP (f : Flags) (v : Byte) (ac : Bool) :
    FlagsFromResult f { f.setZSP v with ac := ac } v ac :=
  ⟨rfl, rfl, parityEven_eq v, rfl, rfl⟩

theorem flagsFromResult_afterInc (f : Flags) (old : Byte) :
    FlagsFromResult f (f.afterInc old) (old + 1) (incAuxCarry old) := flagsFromResult_setZSP f _ _

theorem flagsFromResult_afterDec (f : Flags) (q : Params) (old : Byte) :
    FlagsFromResult f (f.afterDec q old) (old - 1) (q.decAuxCarry old) := flagsFromResult_setZSP f _ _

end Sys2Proof.Machine
end

section
/-! RESULTS. The data transfer instructions (R150 to R161). -/

namespace Sys2Proof.Machine

/-! ## Immediate loads and moves between registers -/

/-- Settles O25: the action is one register write. -/
theorem mviRegister : Obligations.MviRegister := fun r d8 =>
  ⟨hasEncoding_of_encode (by cases r <;> rfl), alwaysExists_of_usesM_eq_false rfl,
    fun s => ⟨_, exec_mviR s r d8, s.setReg_effect r d8⟩⟩

/-- Settles O29: the action is one pair write, whose halves are the third and the second byte. -/
theorem lxiPair : Obligations.LxiPair := by
  refine ⟨noEntry_singleton rfl, fun p hi lo => ⟨hasEncoding_of_encode ?_, alwaysExists_of_usesM_eq_false rfl,
    fun s => ⟨_, exec_lxi s p _, ?_⟩⟩⟩
  · have hop : (Form.lxi p).opcode = SpecBytes.lxi p := by cases p <;> rfl
    simp [encode, Instr.form, Instr.operandBytes, wordBytes, hop]
  · simpa only [hiByte_joinBytes, loByte_joinBytes] using s.setPair_effect p (joinBytes hi lo)

/-- Settles O30: the action is one register write, and each of the 49 opcode bytes is its row plus its column. -/
theorem movRegister : Obligations.MovRegister := fun dst src =>
  ⟨hasEncoding_of_encode (by cases dst <;> cases src <;> rfl), alwaysExists_of_usesM_eq_false rfl,
    fun s => ⟨_, exec_movRR s dst src, s.setReg_effect dst (s.reg src)⟩⟩

/-! ## Loads and stores -/

/-- Settles O26: the action is one store at HL. -/
theorem mviMemory : Obligations.MviMemory := fun d8 =>
  ⟨hasEncoding_of_encode rfl, onlyWithMForms_of_usesM rfl, fun s => ⟨_, exec_mviM s d8, s.writeByte_effect _ d8⟩⟩

/-- Settles O27: the action is one load into A. -/
theorem loadAccumulator : Obligations.LoadAccumulator := fun a16 =>
  ⟨hasEncoding_of_encode rfl, alwaysExists_of_usesM_eq_false rfl,
    fun s => ⟨_, exec_lda_eq_loadReg s a16, s.loadReg_effect .a a16⟩⟩

/-- Settles O28: the action is one store of A. -/
theorem storeAccumulator : Obligations.StoreAccumulator := fun a16 =>
  ⟨hasEncoding_of_encode rfl, alwaysExists_of_usesM_eq_false rfl,
    fun s => ⟨_, exec_sta s a16, s.writeByte_effect a16 (s.reg .a)⟩⟩

/-- Settles O31: the action is one load from the HL of the state before it. -/
theorem movFromMemory : Obligations.MovFromMemory := fun dst =>
  ⟨hasEncoding_of_encode (by cases dst <;> rfl), onlyWithMForms_of_usesM rfl,
    fun s => ⟨_, exec_movRM_eq_loadReg s dst, s.loadReg_effect dst _⟩⟩

/-- Settles O32: the action is one store at HL, and the cell 0x76 of the table is HLT, which has no M. -/
theorem movToMemory : Obligations.MovToMemory :=
  ⟨fun _ => lookup_eq_some_iff_opcode.2 ⟨rfl, rfl⟩, fun src =>
    ⟨hasEncoding_of_encode (by cases src <;> rfl), onlyWithMForms_of_usesM rfl,
      fun s => ⟨_, exec_movMR s src, s.writeByte_effect _ (s.reg src)⟩⟩⟩

/-! ## The stack -/

/-- Settles O33: the action is one push, and the halves of the pair are its registers. -/
theorem pushPair : Obligations.PushPair := by
  refine ⟨noEntry_singleton rfl, fun p => ⟨hasEncoding_of_encode (by cases p <;> rfl), alwaysExists_of_usesM_eq_false rfl,
    fun s => ⟨_, exec_push s p, s.pushWord_sp _, fun b => ?_, keepsRegsBut_nil (s.pushWord_regs _), s.pushWord_pc _,
      ⟨s.pushWord_flags _, s.pushWord_run _, s.pushWord_params _⟩, s.pushWord_draws _, ?_⟩⟩⟩
  · rw [State.pushWord_stores, State.loByte_pair, State.hiByte_pair]
  · rw [State.pushWord_records, State.loByte_pair, State.hiByte_pair]

/-- Settles O34: the action is one pop, then one pair write of the word it gave. -/
theorem popPair : Obligations.PopPair := by
  refine ⟨noEntry_singleton rfl, fun p => ⟨hasEncoding_of_encode (by cases p <;> rfl), alwaysExists_of_usesM_eq_false rfl,
    fun s => ⟨_, exec_pop s p, s.popWord_sp, ?_, ?_, keepsRegsBut_setPair s.popWord_regs p _, s.popWord_pc, s.popWord_peek,
      ⟨s.popWord_flags, s.popWord_run, s.popWord_params⟩, s.popWord_draws, s.popWord_records⟩⟩⟩
  · rw [State.reg_pairLo_setPair, State.popWord_fst, loByte_joinBytes]
  · rw [State.reg_pairHi_setPair, State.popWord_fst, hiByte_joinBytes]

/-- Settles O35: the nested pushes and pops restore what they found, and a pop directly after a push gives the word pushed. -/
theorem pushesThenPopsRestore : Obligations.PushesThenPopsRestore := by
  refine ⟨fun ps s hn hfree => ?_, fun p q s h1 h2 => ?_⟩
  · obtain ⟨t, ht, hrestores⟩ := execAll_pushesThenPops ps s hn (by
      rintro a ⟨j, hj, hjn, rfl⟩
      exact hfree j hj hjn)
    exact ⟨t, ht, hrestores.sp, hrestores.regs⟩
  · have hpop : (s.pushWord (s.pair p)).popWord = (s.pair p, (s.pushWord (s.pair p)).setSp s.sp) :=
      State.popWord_of_pushed (s.pushWord_sp _) (s.pushWord_params _) rfl rfl h2 h1
    refine ⟨((s.pushWord (s.pair p)).setSp s.sp).setPair q (s.pair p), ?_, rfl, State.pair_setPair _ q _,
      keepsRegsBut_setPair (s.pushWord_regs _) q _⟩
    rw [execAll_cons (exec_push s p), execAll_cons (by rw [exec_pop, hpop]), execAll]

/-! ## Flags -/

/-- Settles O41: the four INR and DCR forms write the flags of their result, and every other action leaves the old ones. -/
theorem onlyIncDecWriteFlags : Obligations.OnlyIncDecWriteFlags := by
  intro i s t h
  rw [exec_flags h]
  cases i with
  | inrR _ | inrM => exact ⟨fun hinr => absurd rfl hinr, fun _ => ⟨_, _, flagsFromResult_afterInc s.flags _⟩⟩
  | dcrR _ | dcrM => exact ⟨fun _ hdcr => absurd rfl hdcr, fun _ => ⟨_, _, flagsFromResult_afterDec s.flags s.params _⟩⟩
  | _ => exact ⟨fun _ _ => rfl, fun hincdec => by simp [Instr.form, Form.mnemonic] at hincdec⟩

end Sys2Proof.Machine
end

section
/-! SUPPORT. Stepping a byte up or down by one in a register and at an address, with the flags of the result: the numbers, the
auxiliary carries, and the frame (R170 to R173). -/

namespace Sys2Proof.Machine

/-! ## Bytes without an entry -/

/-- Bytes that the whole table leaves empty have no entry under either M_FORMS (R94, R97). -/
theorem noEntry_of_lookup {ops : List Byte} (h : ∀ op ∈ ops, lookup true op = none) : NoEntry ops :=
  fun op hop => noEntry_singleton (h op hop) op (List.mem_singleton_self op)

/-! ## The results as numbers -/

/-- One less is 255 more, modulo 256 (R172). -/
theorem toNat_sub_one_byte (old : Byte) : (old - 1).toNat = (old.toNat + 255) % 256 := by
  rw [BitVec.toNat_sub, Nat.add_comm]
  rfl

/-! ## The auxiliary carries -/

/-- The mask 0x0F takes the byte modulo 16 (D8). -/
theorem incAuxCarry_eq (old : Byte) : incAuxCarry old = decide (old.toNat % 16 = 15) := by
  have hmask : (old &&& 0x0F).toNat = old.toNat % 16 := by
    rw [BitVec.toNat_and]
    exact Nat.and_two_pow_sub_one_eq_mod old.toNat 4
  rw [← hmask]
  exact decide_eq_decide.2 BitVec.toNat_inj.symm

/-- The carry out of bit 3 leaves the low four bits of the result zero (R170). -/
theorem incAuxCarry_eq_of_result (old : Byte) : incAuxCarry old = decide ((old + 1).toNat % 16 = 0) := by
  have hnew : (old + 1).toNat = (old.toNat + 1) % 256 := BitVec.toNat_add old 1
  rw [incAuxCarry_eq, decide_eq_decide]
  omega

/-- The 256 entries of the default table of DCR_AC (R172, D9). -/
theorem dcrAcCarry_getLsbD (old : Byte) : Config.dcrAcCarry.getLsbD old.toNat = decide (old.toNat % 16 ≠ 0) := by
  have hall : ∀ v : Byte, Config.dcrAcCarry.getLsbD v.toNat = decide (v.toNat % 16 ≠ 0) := by decide
  exact hall old

/-- The 256 entries of the borrow convention's table (R172). -/
theorem dcrAcBorrow_getLsbD (old : Byte) : Config.dcrAcBorrow.getLsbD old.toNat = decide (old.toNat % 16 = 0) := by
  have hall : ∀ v : Byte, Config.dcrAcBorrow.getLsbD v.toNat = decide (v.toNat % 16 = 0) := by decide
  exact hall old

/-- With the default DCR_AC, AC is cleared exactly where the low four bits wrap to 15. -/
theorem dcrAcCarry_getLsbD_of_result (old : Byte) :
    Config.dcrAcCarry.getLsbD old.toNat = decide ((old - 1).toNat % 16 ≠ 15) := by
  have hnew := toNat_sub_one_byte old
  rw [dcrAcCarry_getLsbD, decide_eq_decide]
  omega

/-! ## The frames -/

section
variable (s : State)

/-- A register write with a flag write changes that register and the flags alone (R24). -/
theorem State.setReg_setFlags_frame (r : Reg) (v : Byte) (f : Flags) :
    KeepsRegsBut [r] s ((s.setReg r v).setFlags f) ∧ KeepsPointers s ((s.setReg r v).setFlags f) ∧
      KeepsMem s ((s.setReg r v).setFlags f) ∧ ((s.setReg r v).setFlags f).run = s.run ∧
      ((s.setReg r v).setFlags f).params = s.params ∧ KeepsHooks s ((s.setReg r v).setFlags f) := by
  obtain ⟨-, hregs, hpointers, hmem, ⟨-, hrun, hparams⟩, hhooks⟩ := s.setReg_effect r v
  exact ⟨hregs, hpointers, hmem, hrun, hparams, hhooks⟩

/-- The state after the byte at `a` has been read, `v` written back there, and the flags written. -/
def State.rewriteByte (a : Word) (v : Byte) (f : Flags) : State := ((s.readByte a).2.writeByte a v).setFlags f

theorem exec_inrM_eq_rewriteByte :
    exec .inrM s = .next (s.rewriteByte (s.pair .hl) (s.valueAt s.draws (s.pair .hl) + 1)
      (s.flags.afterInc (s.valueAt s.draws (s.pair .hl)))) := by
  rw [exec_inrM, State.readByte_fst]
  rfl

theorem exec_dcrM_eq_rewriteByte :
    exec .dcrM s = .next (s.rewriteByte (s.pair .hl) (s.valueAt s.draws (s.pair .hl) - 1)
      (s.flags.afterDec s.params (s.valueAt s.draws (s.pair .hl)))) := by
  rw [exec_dcrM, State.readByte_fst]
  rfl

/-- The read changes no cell, so the bytes of memory are those of the one store (R53). -/
theorem State.rewriteByte_peek (a : Word) (v : Byte) (f : Flags) (b : Word) :
    (s.rewriteByte a v f).peek b = s.storedAt a v b := by
  refine (State.writeByte_peek _ a v b).trans ?_
  rw [State.storedAt, State.readByte_snd_hooked, State.readByte_snd_peek, State.storedAt]

/-- A read and a write back change no register; a hook over the address sees both, the read first (R60, R64). -/
theorem State.rewriteByte_frame (a : Word) (v : Byte) (f : Flags) :
    KeepsRegsBut [] s (s.rewriteByte a v f) ∧ KeepsPointers s (s.rewriteByte a v f) ∧
      (s.rewriteByte a v f).run = s.run ∧ (s.rewriteByte a v f).params = s.params ∧
      (s.rewriteByte a v f).draws = s.draws + s.drawsAt a ∧
      (s.rewriteByte a v f).hookLog = s.hookLog ++ s.readEvents s.draws a ++ s.writeEvents a v := by
  obtain ⟨-, hregs, ⟨hsp, hpc⟩, ⟨-, hrun, hparams⟩, hdraws, hlog⟩ := (s.readByte a).2.writeByte_effect a v
  refine ⟨fun q hq => (hregs q hq).trans (s.readByte_snd_reg a q),
    ⟨hsp.trans (s.readByte_snd_sp a), hpc.trans (s.readByte_snd_pc a)⟩, hrun.trans (s.readByte_snd_run a),
    hparams.trans (s.readByte_snd_params a), hdraws.trans (s.readByte_snd_draws a), hlog.trans ?_⟩
  rw [State.readByte_snd_hookLog, State.writeEvents, State.readByte_snd_hooked, State.writeEvents]

end

end Sys2Proof.Machine
end

section
/-! RESULTS. The arithmetic instructions (R170 to R174). -/

namespace Sys2Proof.Machine

/-! ## Registers -/

/-- Settles O36: the action is one register write with the flags of an increment, whose AC is read off the old value or off the
result. -/
theorem incrementRegister : Obligations.IncrementRegister := by
  refine fun r => ⟨hasEncoding_of_encode (by cases r <;> rfl), alwaysExists_of_usesM_eq_false rfl,
    fun s => ⟨_, exec_inrR s r, ?_⟩⟩
  have hresult : ((s.setReg r (s.reg r + 1)).setFlags (s.flags.afterInc (s.reg r))).reg r = s.reg r + 1 :=
    s.reg_setReg_same r _
  rw [hresult, ← incAuxCarry_eq]
  exact ⟨BitVec.toNat_add _ _, flagsFromResult_afterInc s.flags _, incAuxCarry_eq_of_result _,
    s.setReg_setFlags_frame r _ _⟩

/-- Settles O38: the action is one register write with the flags of a decrement, whose AC is the entry of DCR_AC at the old
value. -/
theorem decrementRegister : Obligations.DecrementRegister := by
  refine fun r => ⟨hasEncoding_of_encode (by cases r <;> rfl), alwaysExists_of_usesM_eq_false rfl,
    fun s => ⟨_, exec_dcrR s r, ?_⟩⟩
  have hresult : ((s.setReg r (s.reg r - 1)).setFlags (s.flags.afterDec s.params (s.reg r))).reg r = s.reg r - 1 :=
    s.reg_setReg_same r _
  have hac : ((s.setReg r (s.reg r - 1)).setFlags (s.flags.afterDec s.params (s.reg r))).flags.ac
      = s.params.dcrAc.getLsbD (s.reg r).toNat := rfl
  rw [hresult, hac]
  refine ⟨toNat_sub_one_byte _, flagsFromResult_afterDec s.flags s.params _, fun hcarry => ?_, fun hborrow => ?_,
    s.setReg_setFlags_frame r _ _⟩
  · rw [hcarry]
    exact ⟨dcrAcCarry_getLsbD _, dcrAcCarry_getLsbD_of_result _⟩
  · rw [hborrow]
    exact dcrAcBorrow_getLsbD _

/-! ## The operand M -/

/-- Settles O37: the action reads the byte at HL and writes one more back. -/
theorem incrementMemory : Obligations.IncrementMemory := by
  refine ⟨hasEncoding_of_encode rfl, onlyWithMForms_of_usesM rfl, fun s => ⟨_, _, exec_inrM_eq_rewriteByte s,
    BitVec.toNat_add _ _, s.rewriteByte_peek _ _ _, ?_, s.rewriteByte_frame _ _ _⟩⟩
  rw [← incAuxCarry_eq]
  exact flagsFromResult_afterInc s.flags _

/-- Settles O39: the action reads the byte at HL and writes one less back. -/
theorem decrementMemory : Obligations.DecrementMemory :=
  ⟨hasEncoding_of_encode rfl, onlyWithMForms_of_usesM rfl, fun s => ⟨_, _, exec_dcrM_eq_rewriteByte s,
    toNat_sub_one_byte _, s.rewriteByte_peek _ _ _, flagsFromResult_afterDec s.flags s.params _,
    s.rewriteByte_frame _ _ _⟩⟩

/-! ## Pairs -/

/-- Settles O40: the action is one pair write of the pair plus one, and the five bytes are empty cells of the table. -/
theorem incrementPair : Obligations.IncrementPair := by
  refine ⟨noEntry_of_lookup (by decide), fun p => ⟨hasEncoding_of_encode (by cases p <;> rfl),
    alwaysExists_of_usesM_eq_false rfl, fun s => ⟨_, exec_inx s p, ?_, ?_⟩⟩⟩
  · rw [State.pair_setPair]
    exact BitVec.toNat_add _ _
  · obtain ⟨-, -, hframe⟩ := s.setPair_effect p (s.pair p + 1)
    exact hframe

end Sys2Proof.Machine
end

section
/-! SUPPORT. A step over a known instruction, and the two bytes that a push leaves at the new SP. -/

namespace Sys2Proof.Machine

section
variable {s : State}

/-- On a running machine, when the bytes at PC give an instruction, the step is its action on a state with PC advanced
past it and SP and the parameters as before (R131). -/
theorem step_eq_exec_of_decodeAt {i : Instr} {u : State} (hrun : s.run = .running)
    (hdec : s.decodeAt s.pc = some (i, u)) :
    ∃ w, step s = exec i w ∧ w.pc = s.pc + BitVec.ofNat 16 i.length ∧ w.sp = s.sp ∧ w.params = s.params := by
  obtain ⟨-, -, rfl⟩ := State.decodeAt_some hdec
  obtain ⟨t, hexec⟩ := exec_next i ((s.afterFetch i.form.format s.pc).setPc (s.pc + BitVec.ofNat 16 i.length))
  exact ⟨_, (step_next_iff.2 ⟨hrun, i, _, hdec, hexec⟩).trans hexec.symm, rfl, rfl, rfl⟩

theorem State.pushWord_peek_low (v : Word) (h : s.hooked (s.sp - 2) = false) :
    (s.pushWord v).peek (s.sp - 2) = loByte v := by
  rw [State.pushWord_stores, if_pos ⟨rfl, h⟩]

theorem State.pushWord_peek_high (v : Word) (h : s.hooked (s.sp - 1) = false) :
    (s.pushWord v).peek (s.sp - 1) = hiByte v := by
  have hne : s.sp - 1 ≠ s.sp - 2 := by bv_omega
  rw [State.pushWord_stores, if_neg (fun hlow => hne hlow.1), if_pos ⟨rfl, h⟩]

end

end Sys2Proof.Machine
end

section
/-! RESULTS. The control transfer instructions and HLT (R180 to R183). -/

namespace Sys2Proof.Machine

/-- Settles O43: the action is one write of PC. -/
theorem jumpSetsPc : Obligations.JumpSetsPc := fun a16 =>
  ⟨hasEncoding_of_encode rfl, alwaysExists_of_usesM_eq_false rfl, fun s =>
    ⟨_, exec_jmp s a16, s.setPc_pc a16, s.setPc_sp a16, keepsRegsBut_nil (s.setPc_regs a16), s.setPc_peek a16,
      ⟨rfl, rfl, rfl⟩, ⟨rfl, rfl⟩⟩⟩

/-- Settles O44: the action is one push of PC, then one write of it; in a step the PC pushed is the advanced one. -/
theorem callPushesReturnAddress : Obligations.CallPushesReturnAddress := by
  refine fun a16 => ⟨hasEncoding_of_encode rfl, alwaysExists_of_usesM_eq_false rfl, fun s => ?_, fun s u hrun hdec => ?_⟩
  · exact ⟨_, exec_call s a16, rfl, s.pushWord_sp _, s.pushWord_stores _, keepsRegsBut_nil (s.pushWord_regs _),
      ⟨s.pushWord_flags _, s.pushWord_run _, s.pushWord_params _⟩, s.pushWord_draws _, s.pushWord_records _⟩
  · obtain ⟨w, hstep, hpc, hsp, hparams⟩ := step_eq_exec_of_decodeAt hrun hdec
    replace hpc : w.pc = s.pc + 3 := hpc
    refine ⟨_, hstep.trans (exec_call w a16), (w.pushWord w.pc).setPc_pc a16, ?_, ?_⟩
    all_goals rw [State.setPc_peek, ← State.hooked_congr hparams, ← hsp, ← hpc]
    · exact State.pushWord_peek_low w.pc
    · exact State.pushWord_peek_high w.pc

/-- Settles O45: the action is one pop into PC, and a pop of the word that CALL pushed gives the PC of the CALL's action back. -/
theorem returnPopsPc : Obligations.ReturnPopsPc := by
  refine ⟨hasEncoding_of_encode rfl, alwaysExists_of_usesM_eq_false rfl, fun s => ?_, ?_⟩
  · exact ⟨_, exec_ret s, s.popWord_fst, s.popWord_sp, keepsRegsBut_nil s.popWord_regs, s.popWord_peek,
      ⟨s.popWord_flags, s.popWord_run, s.popWord_params⟩, s.popWord_draws, s.popWord_records⟩
  · intro a16 s t u h1 h2 hcall hsp hparams hhi hlo
    obtain rfl : (s.pushWord s.pc).setPc a16 = t := by simpa using hcall
    have hpop : u.popWord = (s.pc, u.setSp s.sp) :=
      State.popWord_of_pushed (hsp.trans (s.pushWord_sp _)) (hparams.trans (s.pushWord_params _)) hlo hhi h2 h1
    exact ⟨_, exec_ret u, by rw [hpop]; rfl, by rw [hpop]; rfl⟩

/-- Settles O46: the action is one write of the run status, and a halted machine's step is refused. -/
theorem haltStops : Obligations.HaltStops := by
  refine ⟨hasEncoding_of_encode rfl, alwaysExists_of_usesM_eq_false rfl, fun s => ?_, fun s u hrun hdec => ?_⟩
  · exact ⟨_, exec_hlt s, s.setRun_run _, s.setRun_flags _, s.setRun_params _, keepsRegsBut_nil (s.setRun_regs _),
      ⟨rfl, rfl⟩, s.setRun_peek _, ⟨rfl, rfl⟩⟩
  · obtain ⟨w, hstep, hpc, -, -⟩ := step_eq_exec_of_decodeAt hrun hdec
    exact ⟨_, hstep.trans (exec_hlt w), w.setRun_run _, hpc, step_refused_iff.2 ⟨w.setRun_run _, rfl⟩⟩

end Sys2Proof.Machine
end

section
/-! RESULTS. The state that an accepted launch creates, field by field and byte by byte (R230, R232), and the invariant in it. -/

namespace Sys2Proof.Machine

/-- At most 65536 bytes stored from address 0 on are the memory's first bytes, and the others stay. -/
theorem State.peek_pokeBytes_zero (s : State) {bs : List Byte} (hfit : bs.length ≤ 65536) (a : Word) :
    (s.pokeBytes 0 bs).peek a = (bs[a.toNat]?).getD (s.peek a) := by
  cases hv : bs[a.toNat]? with
  | some v => simpa using s.peek_pokeBytes bs 0 a.toNat v hfit hv
  | none =>
    refine s.peek_pokeBytes_outside bs 0 a fun j hj ha => ?_
    have hend : bs.length ≤ a.toNat := List.getElem?_eq_none_iff.1 hv
    have haj : a.toNat = j := by simpa [Nat.mod_eq_of_lt (hj.trans_le hfit)] using congrArg BitVec.toNat ha
    omega

section
variable {k : Launch} {s : State} (h : k.state = .ok s)
include h

/-- Beside its memory, a launched state is the record of step 1 of R230 with the hooks registered. -/
theorem Launch.state_eq_record : s = { k.record.withHooks k.hooks with mem := s.mem } := by
  obtain ⟨-, -, -, rfl⟩ := Launch.state_ok.1 h
  exact State.pokeBytes_eq k.image _ 0

theorem Launch.state_peek (a : Word) :
    s.peek a = (k.image[a.toNat]?).getD (Memory.get (Memory.ofCells k.memInit) a.toNat) := by
  obtain ⟨-, hfit, -, rfl⟩ := Launch.state_ok.1 h
  exact State.peek_pokeBytes_zero _ hfit a

theorem Launch.state_mem_wf : Memory.wf s.mem := by
  obtain ⟨-, -, -, rfl⟩ := Launch.state_ok.1 h
  exact State.pokeBytes_wf k.image 0 (Memory.ofCells_wf k.memInit)

end

/-- Settles O19: the launch has checked the hooks, every store keeps the memory canonical, and no access has been made yet. -/
theorem launchedStateMeetsInvariant : Obligations.LaunchedStateMeetsInvariant := by
  intro k s h
  obtain ⟨hhooks, -⟩ := Launch.state_ok.1 h
  have hs := Launch.state_eq_record h
  have hparams : s.params.hooks = k.hooks := congrArg (·.params.hooks) hs
  have hlog : s.hookLog = [] := congrArg State.hookLog hs
  have hdraws : s.draws = 0 := congrArg State.draws hs
  exact ⟨Launch.state_mem_wf h, hparams ▸ hhooks, by simp [hlog], by simp [hlog, hdraws]⟩

/-- Settles O50: the conditions are those of an accepted launch, and each field but the memory is the one of the record. -/
theorem launchCreatesState : Obligations.LaunchCreatesState := by
  intro k hhooks hfit hfree
  obtain ⟨s, h⟩ := (launchRefusedExactly k).2 ⟨hhooks, hfit, hfree⟩
  have hs := Launch.state_eq_record h
  exact ⟨s, h, congrArg State.pc hs, congrArg State.run hs, congrArg State.regs hs, congrArg State.sp hs,
    congrArg State.flags hs, congrArg State.params hs, congrArg State.draws hs, congrArg State.hookLog hs,
    Launch.state_peek h⟩

end Sys2Proof.Machine
end
